-- ==== Sys2Proof/Word.lean ====
section
/-! DEFINITION. The words of OWTE: the widths that 00_scope.md R11 fixes, as bit vectors of fixed width. -/

namespace Sys2Proof

/-- One byte on the bus, 8 bits (20_memory.md R38). -/
abbrev Byte := BitVec 8

/-- A command word, 32 bits (00_scope.md R11, 30_encoding.md R48). -/
abbrev Word := BitVec 32

/-- A packed ROM address, 64 bits: byte k in bits 8k+7..8k (20_memory.md R33). -/
abbrev Addr := BitVec 64

/-- The temperature register, a signed 16-bit number of 1/16 °C (10_state.md R23). -/
abbrev Temp16 := BitVec 16

end Sys2Proof
end

