-- ==== Sys2Proof/Config.lean ====
section
/-! DEFINITION. What an instance fixes (00_scope.md R10) and the values the spec leaves to the environment (00_scope.md R14).
The parameters are a record that the state carries unchanged, so that a claim over all states is a claim over all instances
(log 5). An opaque constant has no body: no proof can learn its value. -/

namespace Sys2Proof

/-- A scratchpad, 9 bytes in bus order (30_encoding.md R61; 00_scope.md R11). -/
structure Scratchpad where
  b0 : Byte
  b1 : Byte
  b2 : Byte
  b3 : Byte
  b4 : Byte
  b5 : Byte
  b6 : Byte
  b7 : Byte
  b8 : Byte
deriving DecidableEq, Repr, Inhabited

/-- Where a DS18S20 scratchpad holds COUNT_REMAIN and COUNT_PER_C (00_scope.md R10, 30_encoding.md R61). -/
inductive CountLayout where
  | vendor67
  | doc56
deriving DecidableEq, Repr

/-- Which CRC-8 the bus primitive supplies (00_scope.md R10, 42_decoder.md R107): the default, or any other function (log 6). -/
inductive CrcChoice where
  | dallasMaxim
  | supplied
deriving DecidableEq, Repr

/-- The parameters of an instance (00_scope.md R10). `lastSlot` is the index of the last slot, MAX_NUM_DEVICES − 1, so that every
record has MAX_NUM_DEVICES in 1..256. -/
structure Params where
  lastSlot : Fin 256
  crc      : CrcChoice
  wsTh     : Byte
  wsTl     : Byte
  layout   : CountLayout
deriving DecidableEq, Repr

namespace Config

/-- MAX_NUM_DEVICES − 1 of the instance at reset: OPEN in the spec (00_scope.md R10), so opaque (log 5). -/
opaque lastSlot : Fin 256

/-- A CRC-8 other than the default, supplied by the bus primitive (42_decoder.md R107; log 6). -/
opaque suppliedCrc8 : List Byte → Byte

/-- The presence bit of the k-th free draw (00_scope.md R14; log 3). -/
opaque freePresence : Nat → Bool

/-- The bit of the k-th free draw (00_scope.md R14; log 3). -/
opaque freeBit : Nat → Bool

/-- The byte of the k-th free draw (00_scope.md R14; log 3). -/
opaque freeByte : Nat → Byte

/-- The scratchpad the environment places after a conversion, at the k-th free draw (20_memory.md R47; log 4). -/
opaque freeScratchpad : Nat → Scratchpad

/-- The instance at reset: the defaults of 00_scope.md R10, with MAX_NUM_DEVICES open. -/
def params : Params :=
  { lastSlot := lastSlot, crc := .dallasMaxim, wsTh := 0x00, wsTl := 0x00, layout := .vendor67 }

end Config

end Sys2Proof
end

