-- ==== Sys2Proof/Syntax.lean ====
section
/-! DEFINITION. The commands of OWTE: one constructor per row of spec/opcode_table.json (30_encoding.md R51). -/

namespace Sys2Proof

/-- A command with its operands (30_encoding.md R50): `slot` is the slot index of a per-device command, `bits` the resolution
SET_RESOLUTION asks for. Both are unsigned numbers; 0..255 is what WellFormed checks. -/
inductive Instr where
  | resetSearch
  | search
  | getCursor
  | clearTable
  | getSlotCount
  | getType (slot : Nat)
  | getTypeStr (slot : Nat)
  | getAddress (slot : Nat)
  | getResolution (slot : Nat)
  | getState (slot : Nat)
  | setResolution (slot bits : Nat)
  | retrieveData (slot : Nat)
  | getCelsius (slot : Nat)
  | getFahrenheit (slot : Nat)
deriving DecidableEq, Repr

end Sys2Proof
end

