-- ==== Sys2Proof/WellFormed.lean ====
section
/-! DEFINITION. Which terms of Instr have a command word: the operands fit their 8-bit fields (30_encoding.md R49, R50, and R64,
"rejects a slot or bits value outside 0..255"). -/

namespace Sys2Proof

/-- An operand fits its 8-bit field. -/
abbrev fitsField (v : Nat) : Bool := decide (v ≤ 255)

/-- Every operand of the command fits its field. A slot at or above TBL.COUNT, or a resolution outside 9..12, is still a legal
encoding (30_encoding.md R50). -/
def Instr.wf : Instr → Bool
  | .resetSearch => true
  | .search => true
  | .getCursor => true
  | .clearTable => true
  | .getSlotCount => true
  | .getType n => fitsField n
  | .getTypeStr n => fitsField n
  | .getAddress n => fitsField n
  | .getResolution n => fitsField n
  | .getState n => fitsField n
  | .setResolution n bits => fitsField n && fitsField bits
  | .retrieveData n => fitsField n
  | .getCelsius n => fitsField n
  | .getFahrenheit n => fitsField n

end Sys2Proof
end

