-- ==== Sys2Proof/Decode.lean ====
section
/-! DEFINITION. The decoder of command words, total, rejecting by name, and the encoder (30_encoding.md R48–R52). -/

namespace Sys2Proof

/-- Why a word selects no command (30_encoding.md R52). All four end the command ILLEGAL_COMMAND. -/
inductive DecodeReject where
  /-- OP is not in the opcode map. -/
  | unassignedOp
  /-- RSVD is not 0. -/
  | reservedNonzero
  /-- SLOT is not 0 where the row marks it 0. -/
  | slotNonzero
  /-- ARG is not 0 where the row marks it 0. -/
  | argNonzero
deriving DecidableEq, Repr

/-- OP, bits 7..0 (30_encoding.md R49). -/
def opField (w : Word) : Byte := w.extractLsb' 0 8

/-- SLOT, bits 15..8 (30_encoding.md R49). -/
def slotField (w : Word) : Byte := w.extractLsb' 8 8

/-- ARG, bits 23..16 (30_encoding.md R49). -/
def argField (w : Word) : Byte := w.extractLsb' 16 8

/-- RSVD, bits 31..24 (30_encoding.md R49). -/
def rsvdField (w : Word) : Byte := w.extractLsb' 24 8

/-- A row with SLOT, ARG and RSVD 0. -/
def rowPlain (w : Word) (i : Instr) : Except DecodeReject Instr :=
  if rsvdField w ≠ 0 then .error .reservedNonzero
  else if slotField w ≠ 0 then .error .slotNonzero
  else if argField w ≠ 0 then .error .argNonzero
  else .ok i

/-- A row with a slot operand and ARG and RSVD 0. -/
def rowSlot (w : Word) (mk : Nat → Instr) : Except DecodeReject Instr :=
  if rsvdField w ≠ 0 then .error .reservedNonzero
  else if argField w ≠ 0 then .error .argNonzero
  else .ok (mk (slotField w).toNat)

/-- A row with a slot and a bits operand and RSVD 0. -/
def rowSlotBits (w : Word) (mk : Nat → Nat → Instr) : Except DecodeReject Instr :=
  if rsvdField w ≠ 0 then .error .reservedNonzero
  else .ok (mk (slotField w).toNat (argField w).toNat)

/-- The opcode map of 30_encoding.md R51; every other word is rejected (R52). -/
def decode (w : Word) : Except DecodeReject Instr :=
  match (opField w).toNat with
  | 0x01 => rowPlain w .resetSearch
  | 0x02 => rowPlain w .search
  | 0x03 => rowPlain w .getCursor
  | 0x08 => rowPlain w .clearTable
  | 0x09 => rowPlain w .getSlotCount
  | 0x10 => rowSlot w .getType
  | 0x11 => rowSlot w .getTypeStr
  | 0x12 => rowSlot w .getAddress
  | 0x13 => rowSlot w .getResolution
  | 0x14 => rowSlot w .getState
  | 0x20 => rowSlotBits w .setResolution
  | 0x21 => rowSlot w .retrieveData
  | 0x30 => rowSlot w .getCelsius
  | 0x31 => rowSlot w .getFahrenheit
  | _ => .error .unassignedOp

/-- `CMD = (bits << 16) | (slot << 8) | OP`, RSVD being 0 (30_encoding.md R49, R64). -/
def commandWord (op : Byte) (slot bits : Nat) : Word :=
  ((BitVec.ofNat 8 bits).setWidth 32 <<< 16) ||| ((BitVec.ofNat 8 slot).setWidth 32 <<< 8) ||| op.setWidth 32

/-- The command word of a well-formed command (30_encoding.md R49, R51). -/
def encode : Instr → Word
  | .resetSearch => commandWord 0x01 0 0
  | .search => commandWord 0x02 0 0
  | .getCursor => commandWord 0x03 0 0
  | .clearTable => commandWord 0x08 0 0
  | .getSlotCount => commandWord 0x09 0 0
  | .getType n => commandWord 0x10 n 0
  | .getTypeStr n => commandWord 0x11 n 0
  | .getAddress n => commandWord 0x12 n 0
  | .getResolution n => commandWord 0x13 n 0
  | .getState n => commandWord 0x14 n 0
  | .setResolution n bits => commandWord 0x20 n bits
  | .retrieveData n => commandWord 0x21 n 0
  | .getCelsius n => commandWord 0x30 n 0
  | .getFahrenheit n => commandWord 0x31 n 0

/-- The rows of spec/opcode_table.json as (match, mask), in the table's order (30_encoding.md R51, its last sentence). -/
def opcodeRows : List (Word × Word) :=
  [(0x00000001, 0xFFFFFFFF), (0x00000002, 0xFFFFFFFF), (0x00000003, 0xFFFFFFFF), (0x00000008, 0xFFFFFFFF),
   (0x00000009, 0xFFFFFFFF), (0x00000010, 0xFFFF00FF), (0x00000011, 0xFFFF00FF), (0x00000012, 0xFFFF00FF),
   (0x00000013, 0xFFFF00FF), (0x00000014, 0xFFFF00FF), (0x00000020, 0xFF0000FF), (0x00000021, 0xFFFF00FF),
   (0x00000030, 0xFFFF00FF), (0x00000031, 0xFFFF00FF)]

/-- The command word the table's numbering gives for an instruction of `nbits` bits that are `w`: bit 0 is the least significant
bit of the one 32-bit word (30_encoding.md R48), and the bits above `nbits` are 0. -/
def tableWord (nbits w : Nat) : Word := BitVec.ofNat 32 (w % 2 ^ nbits)

/-- The command the decoder reads from that word. -/
def decodeTableWord (nbits w : Nat) : Option Instr :=
  match decode (tableWord nbits w) with
  | .ok i => some i
  | .error _ => none

end Sys2Proof
end

