-- ==== Sys2Proof/Machine/State.lean ====
section
/-! DEFINITION. The state of OWTE as plain data: the block's registers (10_state.md), the instance's parameters, and the model's
own fields for the outside world: the inputs to come and the bus environment (logs 1, 3, 4). -/

namespace Sys2Proof.Machine

/-- DeviceType (30_encoding.md R56). -/
inductive DeviceType where
  | unknown
  | ds18s20
  | ds18b20
  | ds1822
deriving DecidableEq, Repr

/-- A configured resolution in bits: 9, 10, 11 or 12, the only values RES takes (10_state.md R23; log 10). -/
inductive Resolution where
  | r9
  | r10
  | r11
  | r12
deriving DecidableEq, Repr

/-- The per-device state machine (30_encoding.md R58). -/
inductive DevState where
  | discovered
  | configured
  | converting
  | ready
deriving DecidableEq, Repr

/-- Why an enumeration pass ended (30_encoding.md R55); `notOver` is NONE. -/
inductive PassCause where
  | notOver
  | lastDevice
  | noPresence
  | noResponse
  | addressCrc
deriving DecidableEq, Repr

/-- The status conditions (30_encoding.md R54). -/
inductive Status where
  | ok
  | noDevice
  | scratchpadInvalid
  | decodeFailure
  | invalidResolution
  | unsupportedFamily
  | tableFull
  | badSlot
  | illegalCommand
deriving DecidableEq, Repr

/-- The enumeration cursor (10_state.md R18). `ld` is the two's-complement byte R19 describes. -/
structure Cursor where
  la    : Addr
  ld    : BitVec 8
  done  : Bool
  cause : PassCause
  pass  : BitVec 16
deriving DecidableEq, Repr

/-- One occupied slot of the device slot table (10_state.md R23). -/
structure Slot where
  addr   : Addr
  type   : DeviceType
  res    : Resolution
  temp   : Temp16
  tvalid : Bool
  state  : DevState
deriving DecidableEq, Repr

/-- One call of a bus primitive or of Delay, with what it sent or returned (00_scope.md R14): an entry of the bus trace. -/
inductive BusEvent where
  | reset (presence : Bool)
  | readBit (b : Bool)
  | writeBit (b : Bool)
  | writeByte (b : Byte)
  | readByte (b : Byte)
  | delay (ms : Nat)
deriving DecidableEq, Repr

/-- A sensor of the reference bus (20_memory.md R47): its address, its scratchpad, the scratchpads the environment will place
after its next conversions, and whether it is in the participating set P. -/
structure Sensor where
  addr        : Addr
  pad         : Scratchpad
  conversions : List Scratchpad
  taking      : Bool
deriving DecidableEq, Repr

/-- Where the reference bus is in a transaction (20_memory.md R47). -/
inductive BusPhase where
  /-- No transaction. -/
  | idle
  /-- After BusReset: a ROM command byte comes next. -/
  | romCommand
  /-- In Search ROM at bit i, 0..63; `complement` says the next read is the second one. -/
  | search (complement : Bool) (i : Nat)
  /-- In Match ROM, with the address bytes received so far, in order. -/
  | matching (got : List Byte)
  /-- An address is selected: a function command byte comes next. -/
  | selected (a : Addr)
  /-- In Read Scratchpad at byte k. -/
  | reading (a : Addr) (k : Nat)
  /-- In Write Scratchpad at the k-th of its three bytes. -/
  | writing (a : Addr) (k : Nat)
deriving DecidableEq, Repr

/-- The reference bus: its sensors and where it is in a transaction (20_memory.md R47). -/
structure RefBus where
  sensors : List Sensor
  phase   : BusPhase
deriving DecidableEq, Repr

/-- The bus environment (00_scope.md R8, R14; log 3). `answers` holds what the next reads of each kind return, in order, and the
reads after them are free; `reference` is the bus of 20_memory.md R47. -/
inductive Env where
  | answers (presence bits : List Bool) (bytes : List Byte)
  | reference (bus : RefBus)
deriving DecidableEq, Repr

/-- The functions that 00_scope.md R7 puts out of scope and has a model refuse by name. -/
inductive OutOfScope where
  | familyTargetedSearch
  | alarmSearch
  | readRom
  | copyScratchpad
  | recallScratchpad
  | readPowerSupply
  | otherSensorCommand
deriving DecidableEq, Repr

/-- What the outside world does next (log 1). -/
inductive Input where
  /-- The host writes this word to CMD and waits for the command to end (10_state.md R27). -/
  | command (w : Word)
  /-- Power-on reset between commands (70_reset_and_hazards.md R135). -/
  | powerOn
  /-- The bus environment becomes this one between commands: devices join or leave (40_enumeration.md R82; log 22). -/
  | environment (e : Env)
  /-- The host writes this word, and the call after the command's first `calls` calls never returns (60_exceptions.md R128; log 12). -/
  | commandStalls (w : Word) (calls : Nat)
  /-- Power-on reset while the command of this word runs (70_reset_and_hazards.md R138; log 13). -/
  | powerOnDuring (w : Word)
  /-- A second word written while the command of the first one runs (70_reset_and_hazards.md R146; log 14). -/
  | commandDuring (w second : Word)
  /-- A request for a function out of scope (00_scope.md R7; log 15). -/
  | outOfScope (f : OutOfScope)
deriving DecidableEq, Repr

/-- The machine. `params` to `raux` are the block, `trace` is the bus trace of the last command (00_scope.md R9; log 9), and
`inputs`, `env`, `draws` are the outside world. The occupied slots are `slots`, in discovery order; TBL.COUNT is their number
and free slots are not kept (10_state.md R22, R26; log 7). -/
structure State where
  params : Params
  cur    : Cursor
  slots  : List Slot
  cmd    : Word
  status : BitVec 8
  rdata  : BitVec 64
  raux   : BitVec 32
  trace  : List BusEvent
  inputs : List Input
  env    : Env
  draws  : Nat
deriving DecidableEq, Repr

/-- What stops the machine. -/
inductive Fault where
  /-- Raised by the step of an input `commandStalls`: a bus primitive of the command never returns, so the command never ends
  ("stuck", 93_implementation_defined.md section 3; 60_exceptions.md R128). Safe: the hardware has no next state either. -/
  | primitiveNeverReturned
deriving DecidableEq, Repr

/-- What has no meaning. -/
inductive Refusal where
  /-- An instruction that has no meaning yet; raised by the dispatcher. Safe. -/
  | notModelled (mnemonic : String)
  /-- Raised by the step of an input `powerOnDuring` ("A model refuses it", 70_reset_and_hazards.md R138). Safe. -/
  | powerOnDuringCommand
  /-- Raised by the step of an input `commandDuring` ("a model has no step for it", 70_reset_and_hazards.md R146). Safe. -/
  | commandDuringCommand
  /-- Raised by the step of an input `outOfScope` ("A model refuses any behaviour of these by name", 00_scope.md R7). Safe. -/
  | functionOutOfScope (f : OutOfScope)
deriving DecidableEq, Repr

/-- The cursor's initial state (10_state.md R18, 40_enumeration.md R66): address 0, branch position −1, pass not over, 0 found. -/
def Cursor.initial : Cursor :=
  { la := 0, ld := 0xFF, done := false, cause := .notOver, pass := 0 }

/-- The block after power-on reset (70_reset_and_hazards.md R136) in a given instance, with a given outside world, which a
reset leaves alone (R137). -/
def State.powerOnWith (p : Params) (ins : List Input) (e : Env) (k : Nat) : State :=
  { params := p, cur := Cursor.initial, slots := [], cmd := 0, status := 0x00, rdata := 0, raux := 0, trace := [],
    inputs := ins, env := e, draws := k }

/-- The machine right after reset: the registers as 70_reset_and_hazards.md R136, no input yet (log 1), and an environment of
which nothing is known (log 3). -/
def State.reset : State := State.powerOnWith Config.params [] (.answers [] [] []) 0

end Sys2Proof.Machine
end

