-- ==== Sys2Proof/Machine/Bytes.lean ====
section
/-! DEFINITION. Bit fields, byte order and the spec's integer notation (00_scope.md R12, R13; 20_memory.md R33–R36). -/

namespace Sys2Proof.Machine

/-- `A.byte[k]`, bits 8k+7..8k (00_scope.md R13). -/
def addrByte (a : Addr) (k : Nat) : Byte := a.extractLsb' (8 * k) 8

/-- The 8 bytes of an address in bus order (20_memory.md R35). -/
def addrBytes (a : Addr) : List Byte :=
  [addrByte a 0, addrByte a 1, addrByte a 2, addrByte a 3, addrByte a 4, addrByte a 5, addrByte a 6, addrByte a 7]

/-- `A.bit[i]` (20_memory.md R34). -/
def addrBit (a : Addr) (i : Nat) : Bool := a.getLsbD i

/-- `A.bit[i] <- b`. -/
def setAddrBit (a : Addr) (i : Nat) (b : Bool) : Addr :=
  if b then a ||| BitVec.twoPow 64 i else a &&& ~~~(BitVec.twoPow 64 i)

/-- The address of bytes in bus order: byte k in bits 8k+7..8k (20_memory.md R33). -/
def packBytes : List Byte → Addr
  | [] => 0
  | b :: rest => b.setWidth 64 ||| (packBytes rest <<< 8)

/-- The order key K (40_enumeration.md R80): the 64 bits in search order read as a binary number, bit 0 most significant. -/
def orderKey (a : Addr) : Nat :=
  ((List.range 64).map fun i => if addrBit a i then 2 ^ (63 - i) else 0).sum

/-- `floor_div(a, b)`, rounding toward minus infinity (00_scope.md R12). -/
def floorDiv (a b : Int) : Int := Int.fdiv a b

/-- The 9 bytes of a scratchpad in bus order (20_memory.md R35). -/
def padBytes (sp : Scratchpad) : List Byte :=
  [sp.b0, sp.b1, sp.b2, sp.b3, sp.b4, sp.b5, sp.b6, sp.b7, sp.b8]

/-- `sp[k]` for k in 0..8, and 0xFF past the end (where 20_memory.md R47 has nothing left to return). -/
def padByte (sp : Scratchpad) (k : Nat) : Byte := (padBytes sp).getD k 0xFF

/-- `sp[k] <- b` for the three bytes that Write Scratchpad reaches, 2, 3 and 4 (20_memory.md R31, R47). -/
def setPadByte (sp : Scratchpad) (k : Nat) (b : Byte) : Scratchpad :=
  match k with
  | 2 => { sp with b2 := b }
  | 3 => { sp with b3 := b }
  | 4 => { sp with b4 := b }
  | _ => sp

/-- The raw temperature field {sp[1], sp[0]} (20_memory.md R36). -/
def rawField (sp : Scratchpad) : BitVec 16 := sp.b1 ++ sp.b0

end Sys2Proof.Machine
end

