-- ==== Sys2Proof/Machine/Codes.lean ====
section
/-! DEFINITION. The code tables of 30_encoding.md: what the named values look like as register contents and on the wire. -/

namespace Sys2Proof.Machine

/-- DeviceType codes (30_encoding.md R56). -/
def typeCode : DeviceType → BitVec 2
  | .unknown => 0
  | .ds18s20 => 1
  | .ds18b20 => 2
  | .ds1822 => 3

/-- The family codes that select a DeviceType (30_encoding.md R56, 42_decoder.md R108). -/
def classify (family : Byte) : DeviceType :=
  if family = 0x10 then .ds18s20
  else if family = 0x28 then .ds18b20
  else if family = 0x22 then .ds1822
  else .unknown

/-- The type names as the source spells them (30_encoding.md R57). -/
def typeName : DeviceType → List Char
  | .unknown => ['U', 'N', 'K', 'N', 'O', 'W', 'N']
  | .ds18s20 => ['D', 'S', '1', '8', 'S', '2', '0']
  | .ds18b20 => ['D', 'S', '1', '8', 'B', '2', '0']
  | .ds1822 => ['D', 'S', '1', '8', '2', '2']

/-- ASCII characters in RDATA, character j in bits 8j+7..8j, unused high bytes 0 (30_encoding.md R57). -/
def packAscii : List Char → BitVec 64
  | [] => 0
  | c :: rest => (BitVec.ofNat 8 c.toNat).setWidth 64 ||| (packAscii rest <<< 8)

/-- Per-device state codes (30_encoding.md R58). -/
def stateCode : DevState → BitVec 2
  | .discovered => 0
  | .configured => 1
  | .converting => 2
  | .ready => 3

/-- CUR.CAUSE codes (30_encoding.md R55). -/
def causeCode : PassCause → BitVec 3
  | .notOver => 0
  | .lastDevice => 1
  | .noPresence => 2
  | .noResponse => 3
  | .addressCrc => 4

/-- A resolution in bits (10_state.md R23). -/
def resBits : Resolution → Nat
  | .r9 => 9
  | .r10 => 10
  | .r11 => 11
  | .r12 => 12

/-- The resolution a number asks for, if it is one of 9, 10, 11, 12 (41_device.md R92, R93). -/
def resolutionOf : Nat → Option Resolution
  | 9 => some .r9
  | 10 => some .r10
  | 11 => some .r11
  | 12 => some .r12
  | _ => none

/-- The configuration byte `((r − 9) << 5) | 0x1F` (30_encoding.md R63). -/
def configByte (r : Resolution) : Byte := (BitVec.ofNat 8 (resBits r - 9) <<< 5) ||| 0x1F

/-- The conversion wait in milliseconds (41_device.md R101; 90_conflicts.md C6). -/
def tconv : Resolution → Nat
  | .r9 => 94
  | .r10 => 188
  | .r11 => 375
  | .r12 => 750

/-- Search ROM (30_encoding.md R59). -/
def cmdSearchRom : Byte := 0xF0

/-- Match ROM (30_encoding.md R59). -/
def cmdMatchRom : Byte := 0x55

/-- Skip ROM, which the block never sends (30_encoding.md R59). -/
def cmdSkipRom : Byte := 0xCC

/-- Convert T (30_encoding.md R59). -/
def cmdConvertT : Byte := 0x44

/-- Read Scratchpad (30_encoding.md R59). -/
def cmdReadScratchpad : Byte := 0xBE

/-- Write Scratchpad (30_encoding.md R59). -/
def cmdWriteScratchpad : Byte := 0x4E

end Sys2Proof.Machine
end

