-- ==== Sys2Proof/Machine/Environment.lean ====
section
/-! DEFINITION. The bus environment (00_scope.md R14): what each primitive answers and how the environment moves on. The reference
bus is 20_memory.md R47; it is not part of the block, and what it answers outside the transactions R47 describes is log 4. -/

namespace Sys2Proof.Machine

/-- What an environment answers, the environment after it, and the count of free values drawn so far. -/
structure Draw (α : Type) where
  value : α
  env   : Env
  draws : Nat

/-- BusReset on the reference bus: P becomes every sensor, and a ROM command comes next (20_memory.md R47). It may come anywhere, and
what the transaction it cuts short has done to a scratchpad stays, which is the model's choice (log 4). -/
def refReset (r : RefBus) : RefBus :=
  { sensors := r.sensors.map fun d => { d with taking := true }, phase := .romCommand }

/-- The AND, over the sensors of P, of bit i or of its complement; 1 if P is empty (20_memory.md R47). -/
def wiredAnd (r : RefBus) (complement : Bool) (i : Nat) : Bool :=
  r.sensors.all fun d => !d.taking || (addrBit d.addr i ^^ complement)

/-- What a bit read returns on the reference bus: the wired AND in a search (20_memory.md R47), and 1 otherwise, after bit 63 too,
which is the model's choice (log 4). -/
def refReadBit (r : RefBus) : Bool :=
  match r.phase with
  | .search complement i => wiredAnd r complement i
  | _ => true

/-- The reference bus after a bit read: the second read of the bit comes next (20_memory.md R47). After a second read a third answers
as the first, and a read outside a search changes nothing, which is the model's choice (log 4). -/
def refAfterReadBit (r : RefBus) : RefBus :=
  match r.phase with
  | .search complement i => { r with phase := .search (!complement) i }
  | _ => r

/-- The reference bus after the direction of bit i is written: P keeps the sensors with that bit (20_memory.md R47). That the
transaction is over with bit 63, that a direction is taken before both reads too, and that a bit written outside a search changes
nothing, is the model's choice (log 4). -/
def refWriteBit (dir : Bool) (r : RefBus) : RefBus :=
  match r.phase with
  | .search _ i =>
    { sensors := r.sensors.map fun d => { d with taking := d.taking && (addrBit d.addr i == dir) },
      phase := if i < 63 then .search false (i + 1) else .idle }
  | _ => r

/-- The sensors with those that have address `a` changed; R47 has at most one (log 4). -/
def onSensor (a : Addr) (f : Sensor → Sensor) (ds : List Sensor) : List Sensor :=
  ds.map fun d => if d.addr = a then f d else d

/-- A conversion: the environment places the next scratchpad, a free one where none is prepared (20_memory.md R47; log 4). That it
places all nine bytes, and at once, is the model's choice (log 4). -/
def converted (free : Scratchpad) (d : Sensor) : Sensor :=
  match d.conversions with
  | [] => { d with pad := free }
  | sp :: rest => { d with pad := sp, conversions := rest }

/-- The reference bus after a byte is written (20_memory.md R47); `free` is what a conversion places where no result is prepared.
The model's choices here (log 4): a conversion's result is in the scratchpad with the write of 0x44 already, before any Delay; the
device does not stay selected after 0x44, after the third byte of Write Scratchpad or after 0xBE, so that a further command byte is
ignored until a BusReset; each byte of Write Scratchpad is in the scratchpad at once, so that a write cut short keeps the bytes
sent; another ROM or function command byte ends the transaction; a byte where none is due is ignored. -/
def refWriteByte (b : Byte) (free : Scratchpad) (r : RefBus) : RefBus :=
  match r.phase with
  | .romCommand =>
    if b = cmdSearchRom then { r with phase := .search false 0 }
    else if b = cmdMatchRom then { r with phase := .matching [] }
    else { r with phase := .idle }
  | .matching got =>
    if got.length = 7 then { r with phase := .selected (packBytes (got ++ [b])) }
    else { r with phase := .matching (got ++ [b]) }
  | .selected a =>
    if b = cmdReadScratchpad then { r with phase := .reading a 0 }
    else if b = cmdWriteScratchpad then { r with phase := .writing a 0 }
    else if b = cmdConvertT then { sensors := onSensor a (converted free) r.sensors, phase := .idle }
    else { r with phase := .idle }
  | .writing a k =>
    { sensors := onSensor a (fun d => { d with pad := setPadByte d.pad (2 + k) b }) r.sensors,
      phase := if k = 2 then .idle else .writing a (k + 1) }
  | .idle => r
  | .search _ _ => r
  | .reading _ _ => r

/-- What a byte read returns on the reference bus: the selected sensor's scratchpad byte, and 0xFF where no sensor is selected
(20_memory.md R47). That it is 0xFF past byte 8 and outside Read Scratchpad too, and that of several sensors with one address the
first answers, is the model's choice (log 4). -/
def refReadByte (r : RefBus) : Byte :=
  match r.phase with
  | .reading a k =>
    match r.sensors.find? (fun d => d.addr == a) with
    | some d => padByte d.pad k
    | none => 0xFF
  | _ => 0xFF

/-- The reference bus after a byte read: the next scratchpad byte comes next (20_memory.md R47). A byte read elsewhere changes
nothing, which is the model's choice (log 4). -/
def refAfterReadByte (r : RefBus) : RefBus :=
  match r.phase with
  | .reading a k => { r with phase := .reading a (k + 1) }
  | _ => r

/-- The answer to BusReset (00_scope.md R14). -/
def drawPresence (k : Nat) : Env → Draw Bool
  | .answers (p :: ps) bits bytes => ⟨p, .answers ps bits bytes, k⟩
  | .answers [] bits bytes => ⟨Config.freePresence k, .answers [] bits bytes, k + 1⟩
  | .reference r => ⟨!r.sensors.isEmpty, .reference (refReset r), k⟩

/-- The answer to BusReadBit (00_scope.md R14). -/
def drawBit (k : Nat) : Env → Draw Bool
  | .answers ps (b :: bits) bytes => ⟨b, .answers ps bits bytes, k⟩
  | .answers ps [] bytes => ⟨Config.freeBit k, .answers ps [] bytes, k + 1⟩
  | .reference r => ⟨refReadBit r, .reference (refAfterReadBit r), k⟩

/-- The answer to BusReadByte (00_scope.md R14). -/
def drawByte (k : Nat) : Env → Draw Byte
  | .answers ps bits (b :: bytes) => ⟨b, .answers ps bits bytes, k⟩
  | .answers ps bits [] => ⟨Config.freeByte k, .answers ps bits [], k + 1⟩
  | .reference r => ⟨refReadByte r, .reference (refAfterReadByte r), k⟩

/-- The environment takes in a written bit (00_scope.md R14); prepared answers already allow for what is written. -/
def sendBit (b : Bool) : Env → Env
  | .answers ps bits bytes => .answers ps bits bytes
  | .reference r => .reference (refWriteBit b r)

/-- The environment takes in a written byte (00_scope.md R14). The reference bus is given a fresh free scratchpad with each. -/
def sendByte (k : Nat) (b : Byte) : Env → Draw Unit
  | .answers ps bits bytes => ⟨(), .answers ps bits bytes, k⟩
  | .reference r => ⟨(), .reference (refWriteByte b (Config.freeScratchpad k) r), k + 1⟩

end Sys2Proof.Machine
end

