-- ==== Sys2Proof/Machine/Flags.lean ====
section
/-! DEFINITION. The block has no condition codes: STATUS is the only outcome of a command (10_state.md R29). This file has its
codes. -/

namespace Sys2Proof.Machine

/-- STATUS values (30_encoding.md R54). -/
def statusCode : Status → BitVec 8
  | .ok => 0x00
  | .noDevice => 0x01
  | .scratchpadInvalid => 0x02
  | .decodeFailure => 0x03
  | .invalidResolution => 0x04
  | .unsupportedFamily => 0x05
  | .tableFull => 0x06
  | .badSlot => 0x07
  | .illegalCommand => 0x08

end Sys2Proof.Machine
end

