-- ==== Sys2Proof/Machine/TempDecoder.lean ====
section
/-! DEFINITION. The pure decoder: CRC-8, the address and scratchpad checks, the per-family decode and the Fahrenheit output
(42_decoder.md). -/

namespace Sys2Proof.Machine

/-- `n` bit steps of the default CRC-8 on the register `c` and the data byte `d`, least significant bit first (42_decoder.md R107). -/
def crcBits : Nat → Byte → Byte → Byte
  | 0, c, _ => c
  | n + 1, c, d =>
    let shifted := c >>> 1
    crcBits n (if (c ^^^ d).getLsbD 0 then shifted ^^^ 0x8C else shifted) (d >>> 1)

/-- The default CRC-8 from the register value `c` on (42_decoder.md R107). -/
def crcFrom (c : Byte) : List Byte → Byte
  | [] => c
  | d :: rest => crcFrom (crcBits 8 c d) rest

/-- The default CRC-8, Dallas/Maxim: initial value 0, no final inversion (42_decoder.md R107). -/
def dallasCrc8 (bytes : List Byte) : Byte := crcFrom 0 bytes

/-- The CRC-8 of the instance (00_scope.md R10; log 6). -/
def crc8 (p : Params) (bytes : List Byte) : Byte :=
  match p.crc with
  | .dallasMaxim => dallasCrc8 bytes
  | .supplied => Config.suppliedCrc8 bytes

/-- An address is valid iff byte 7 is the CRC-8 of bytes 0..6 (30_encoding.md R60). -/
def addrValid (p : Params) (a : Addr) : Bool :=
  crc8 p [addrByte a 0, addrByte a 1, addrByte a 2, addrByte a 3, addrByte a 4, addrByte a 5, addrByte a 6] == addrByte a 7

/-- `scratchpad_ok` (42_decoder.md R109): the CRC matches and not all nine bytes are 0. -/
def scratchpadOk (p : Params) (sp : Scratchpad) : Bool :=
  crc8 p [sp.b0, sp.b1, sp.b2, sp.b3, sp.b4, sp.b5, sp.b6, sp.b7] == sp.b8
    && !((padBytes sp).all fun b => b == 0x00)

/-- The mask of a resolution on the 12-bit field (42_decoder.md R111). -/
def resMask (r : Resolution) : BitVec 12 := BitVec.ofNat 12 (0xFFF - (2 ^ (12 - resBits r) - 1))

/-- `decode_b20` (42_decoder.md R111, R112): the masked 12-bit field as a signed number of 1/16 °C. -/
def decodeB20 (r : Resolution) (field : BitVec 16) : Int :=
  (field.extractLsb' 0 12 &&& resMask r).toInt

/-- CR_INDEX (30_encoding.md R61). -/
def countRemainIndex : CountLayout → Nat
  | .vendor67 => 6
  | .doc56 => 5

/-- CPC_INDEX (30_encoding.md R61). -/
def countPerCIndex : CountLayout → Nat
  | .vendor67 => 7
  | .doc56 => 6

/-- The DS18S20 formula in 1/16 °C, from the half-degree count, COUNT_REMAIN and a nonzero COUNT_PER_C
(42_decoder.md R113, R114, R115). -/
def s20Sixteenths (half countRemain countPerC : Int) : Int :=
  16 * floorDiv half 2 - 4 + floorDiv (16 * (countPerC - countRemain)) countPerC

/-- `decode_s20` (42_decoder.md R113); `none` is the decode failure of R116. -/
def decodeS20 (layout : CountLayout) (field : BitVec 16) (sp : Scratchpad) : Option Int :=
  let cr := padByte sp (countRemainIndex layout)
  let cpc := padByte sp (countPerCIndex layout)
  if cpc = 0 then none
  else some (s20Sixteenths (field.extractLsb' 0 9).toInt cr.toNat cpc.toNat)

/-- `decode` (42_decoder.md R110). UNKNOWN is "not reached" there; the value here is read by no command (log 21). -/
def decodeTemp (p : Params) (t : DeviceType) (r : Resolution) (sp : Scratchpad) : Option Int :=
  match t with
  | .ds18b20 => some (decodeB20 r (rawField sp))
  | .ds1822 => some (decodeB20 r (rawField sp))
  | .ds18s20 => decodeS20 p.layout (rawField sp) sp
  | .unknown => none

/-- `fahrenheit80` (42_decoder.md R119): 1/80 °F from 1/16 °C. -/
def fahrenheit80 (t : Int) : Int := 9 * t + 2560

end Sys2Proof.Machine
end

