-- ==== Sys2Proof/Machine/Ops.lean ====
section
/-! DEFINITION. The named operations over the registers and the bus. There is no exception entry and no return (60_exceptions.md
R121, R126): an error condition ends its command by `raise`, the one operation of 00_scope.md R15. -/

namespace Sys2Proof.Machine

/-- TBL.COUNT, the number of occupied slots (10_state.md R22; log 7). -/
def State.tblCount (s : State) : Nat := s.slots.length

/-- MAX_NUM_DEVICES of the instance, 1..256 (00_scope.md R10). -/
def State.maxNumDevices (s : State) : Nat := s.params.lastSlot.val + 1

/-- A command starts with an empty bus trace of its own (00_scope.md R9; log 9). -/
def beginCommand (s : State) : State := { s with trace := [] }

/-- `finish(code)` with the RDATA and RAUX the command leaves (00_scope.md R15). -/
def finish (code : Status) (rdata : BitVec 64) (raux : BitVec 32) (s : State) : State :=
  { s with status := statusCode code, rdata := rdata, raux := raux }

/-- `raise <Status>`: the command ends with RDATA and RAUX 0, and every state write before it stays (00_scope.md R15,
60_exceptions.md R121, R125). -/
def raise (code : Status) (s : State) : State := finish code 0 0 s

/-- One entry at the end of the bus trace (00_scope.md R14). -/
def emit (e : BusEvent) (s : State) : State := { s with trace := s.trace ++ [e] }

/-- The outside world after a bus call. -/
def setEnv (e : Env) (k : Nat) (s : State) : State := { s with env := e, draws := k }

/-- `BusReset()`: the presence bit (00_scope.md R14). -/
def busReset (s : State) : Bool × State :=
  let d := drawPresence s.draws s.env
  (d.value, emit (.reset d.value) (setEnv d.env d.draws s))

/-- `BusReadBit()` (00_scope.md R14). -/
def busReadBit (s : State) : Bool × State :=
  let d := drawBit s.draws s.env
  (d.value, emit (.readBit d.value) (setEnv d.env d.draws s))

/-- `BusWriteBit(b)` (00_scope.md R14). -/
def busWriteBit (b : Bool) (s : State) : State :=
  emit (.writeBit b) (setEnv (sendBit b s.env) s.draws s)

/-- `BusWriteByte(b)` (00_scope.md R14). -/
def busWriteByte (b : Byte) (s : State) : State :=
  let d := sendByte s.draws b s.env
  emit (.writeByte b) (setEnv d.env d.draws s)

/-- `BusReadByte()` (00_scope.md R14). -/
def busReadByte (s : State) : Byte × State :=
  let d := drawByte s.draws s.env
  (d.value, emit (.readByte d.value) (setEnv d.env d.draws s))

/-- `Delay(ms)` (00_scope.md R14, 60_exceptions.md R130; log 17). -/
def busDelay (ms : Nat) (s : State) : State := emit (.delay ms) s

/-- Bytes sent in ascending index (20_memory.md R35). -/
def busWriteBytes : List Byte → State → State
  | [], s => s
  | b :: rest, s => busWriteBytes rest (busWriteByte b s)

/-- The start of a transaction with one device: BusReset with its presence bit ignored (41_device.md R96), Match ROM and the 8
address bytes (41_device.md R92, R99). -/
def matchRom (a : Addr) (s : State) : State :=
  busWriteBytes (addrBytes a) (busWriteByte cmdMatchRom (busReset s).2)

/-- The nine reads of Read Scratchpad, byte 0 first (20_memory.md R35, 41_device.md R99). -/
def readScratchpad (s : State) : Scratchpad × State :=
  let r0 := busReadByte s
  let r1 := busReadByte r0.2
  let r2 := busReadByte r1.2
  let r3 := busReadByte r2.2
  let r4 := busReadByte r3.2
  let r5 := busReadByte r4.2
  let r6 := busReadByte r5.2
  let r7 := busReadByte r6.2
  let r8 := busReadByte r7.2
  (⟨r0.1, r1.1, r2.1, r3.1, r4.1, r5.1, r6.1, r7.1, r8.1⟩, r8.2)

/-- A write to fields of slot n. -/
def updateSlot (n : Nat) (f : Slot → Slot) (s : State) : State := { s with slots := s.slots.modify n f }

/-- A command word that selects no command: ILLEGAL_COMMAND and no other effect (30_encoding.md R52). -/
def illegalCommand (s : State) : State := raise .illegalCommand (beginCommand s)

/-- Power-on reset: every register as 70_reset_and_hazards.md R136, nothing on the bus, the sensors untouched (R137). -/
def powerOn (s : State) : State := State.powerOnWith s.params s.inputs s.env s.draws

end Sys2Proof.Machine
end

