-- ==== Sys2Proof/Machine/Operands.lean ====
section
/-! DEFINITION. Operands and results: the slot operand's check, and the values the commands put into RDATA and RAUX
(30_encoding.md R50, R53). -/

namespace Sys2Proof.Machine

/-- `check_slot`, the first check of every per-device command (60_exceptions.md R122): a free slot ends the command BAD_SLOT;
otherwise the command goes on with the slot's fields. -/
def checkSlot (n : Nat) (s : State) (k : Slot → State → State) : State :=
  match s.slots[n]? with
  | none => raise .badSlot s
  | some sl => k sl s

/-- `zext_32` of a one-bit register. -/
def zextBit (b : Bool) : BitVec 32 := (BitVec.ofBool b).setWidth 32

/-- `sext_64` of an integer: its two's complement in 64 bits (30_encoding.md R53). -/
def sext64 (v : Int) : BitVec 64 := BitVec.ofInt 64 v

/-- RAUX of GET_CURSOR: PASS in 31..16, zeros in 15..12, CAUSE in 11..9, DONE in 8, LD in 7..0 (40_enumeration.md R84). -/
def cursorAux (c : Cursor) : BitVec 32 :=
  (c.pass.setWidth 32 <<< 16) ||| ((causeCode c.cause).setWidth 32 <<< 9) ||| ((BitVec.ofBool c.done).setWidth 32 <<< 8)
    ||| c.ld.setWidth 32

end Sys2Proof.Machine
end

