-- ==== Sys2Proof/Machine/Accessors.lean ====
section
/-! DEFINITION. The accessors: GET_TYPE, GET_TYPE_STR, GET_ADDRESS, GET_RESOLUTION, GET_STATE (41_device.md section 2). -/

namespace Sys2Proof.Machine

/-- GET_TYPE (41_device.md R87). -/
def execGetType (n : Nat) (s : State) : Host.Outcome State Fault Refusal :=
  .next (checkSlot n (beginCommand s) fun sl => finish .ok ((typeCode sl.type).setWidth 64) 0)

/-- GET_TYPE_STR (41_device.md R88, 30_encoding.md R57). -/
def execGetTypeStr (n : Nat) (s : State) : Host.Outcome State Fault Refusal :=
  .next (checkSlot n (beginCommand s) fun sl =>
    finish .ok (packAscii (typeName sl.type)) (BitVec.ofNat 32 (typeName sl.type).length))

/-- GET_ADDRESS (41_device.md R89). -/
def execGetAddress (n : Nat) (s : State) : Host.Outcome State Fault Refusal :=
  .next (checkSlot n (beginCommand s) fun sl => finish .ok sl.addr 0)

/-- GET_RESOLUTION (41_device.md R90): the block's register, not the sensor's configuration byte. -/
def execGetResolution (n : Nat) (s : State) : Host.Outcome State Fault Refusal :=
  .next (checkSlot n (beginCommand s) fun sl => finish .ok (BitVec.ofNat 64 (resBits sl.res)) 0)

/-- GET_STATE (41_device.md R91). -/
def execGetState (n : Nat) (s : State) : Host.Outcome State Fault Refusal :=
  .next (checkSlot n (beginCommand s) fun sl => finish .ok ((stateCode sl.state).setWidth 64) (zextBit sl.tvalid))

end Sys2Proof.Machine
end

