-- ==== Sys2Proof/Machine/Device.lean ====
section
/-! DEFINITION. The commands that use the bus of one device: SET_RESOLUTION, RETRIEVE_DATA (41_device.md sections 3, 4). -/

namespace Sys2Proof.Machine

/-- The bus transaction of SET_RESOLUTION (41_device.md R92): Write Scratchpad with TH, TL and the configuration byte. -/
def writeConfig (a : Addr) (r : Resolution) (s : State) : State :=
  busWriteBytes [cmdWriteScratchpad, s.params.wsTh, s.params.wsTl, configByte r] (matchRom a s)

/-- SET_RESOLUTION once slot and range are checked (41_device.md R92, R94, R95, R97). -/
def setResolutionOn (n : Nat) (r : Resolution) (sl : Slot) (s : State) : State :=
  match sl.type with
  | .unknown => raise .unsupportedFamily s
  | .ds18s20 => finish .ok 0 0 s
  | .ds18b20 | .ds1822 =>
    finish .ok 0 0 (updateSlot n (fun x => { x with res := r, state := .configured }) (writeConfig sl.addr r s))

/-- SET_RESOLUTION (41_device.md R92): slot, then range (R93), then family. -/
def execSetResolution (n bits : Nat) (s : State) : Host.Outcome State Fault Refusal :=
  .next (checkSlot n (beginCommand s) fun sl s =>
    match resolutionOf bits with
    | none => raise .invalidResolution s
    | some r => setResolutionOn n r sl s)

/-- The bus transactions of RETRIEVE_DATA (41_device.md R99): convert, wait, read the scratchpad. -/
def convertAndRead (sl : Slot) (s : State) : Scratchpad × State :=
  readScratchpad (busWriteByte cmdReadScratchpad (matchRom sl.addr
    (busDelay (tconv sl.res) (busWriteByte cmdConvertT (matchRom sl.addr s)))))

/-- RETRIEVE_DATA once the scratchpad is read and STATE is READY (41_device.md R99, R102, R103). -/
def storeReading (n : Nat) (sl : Slot) (sp : Scratchpad) (s : State) : State :=
  if scratchpadOk s.params sp then
    match decodeTemp s.params sl.type sl.res sp with
    | none => raise .decodeFailure s
    | some t => finish .ok (sext64 t) 0 (updateSlot n (fun x => { x with temp := BitVec.ofInt 16 t, tvalid := true }) s)
  else raise .scratchpadInvalid s

/-- RETRIEVE_DATA on a slot of a known type (41_device.md R99, R104): CONVERTING on the bus, READY after it. -/
def retrieveOn (n : Nat) (sl : Slot) (s : State) : State :=
  let r := convertAndRead sl (updateSlot n (fun x => { x with state := .converting }) s)
  storeReading n sl r.1 (updateSlot n (fun x => { x with state := .ready }) r.2)

/-- RETRIEVE_DATA (41_device.md R99, R100). -/
def execRetrieveData (n : Nat) (s : State) : Host.Outcome State Fault Refusal :=
  .next (checkSlot n (beginCommand s) fun sl s =>
    match sl.type with
    | .unknown => raise .unsupportedFamily s
    | .ds18s20 | .ds18b20 | .ds1822 => retrieveOn n sl s)

end Sys2Proof.Machine
end

