-- ==== Sys2Proof/Machine/Enumeration.lean ====
section
/-! DEFINITION. The enumeration search engine: RESET_SEARCH, SEARCH, GET_CURSOR (40_enumeration.md). -/

namespace Sys2Proof.Machine

/-- RESET_SEARCH (40_enumeration.md R66). -/
def execResetSearch (s : State) : Host.Outcome State Fault Refusal :=
  .next (finish .ok 0 0 { beginCommand s with cur := Cursor.initial })

/-- SEQ.WORK and SEQ.LZ inside one SEARCH (10_state.md R21; log 8). -/
structure SearchSeq where
  work : Addr
  lz   : BitVec 8
deriving DecidableEq, Repr

/-- `choose(b, cb, i)` for (b, cb) ≠ (1, 1) (40_enumeration.md R73): the direction taken at bit i. -/
def chooseDir (c : Cursor) (b cb : Bool) (i : Nat) : Bool :=
  if b ≠ cb then b
  else if (i : Int) < c.ld.toInt then addrBit c.la i
  else if (i : Int) = c.ld.toInt then true
  else false

/-- A conflict that took the 0 branch, which SEQ.LZ remembers (40_enumeration.md R73). -/
def zeroConflict (b cb dir : Bool) : Bool := !b && !cb && !dir

/-- The sequencer after bit i took direction `dir` (40_enumeration.md R68, R73). -/
def SearchSeq.take (q : SearchSeq) (i : Nat) (b cb dir : Bool) : SearchSeq :=
  { work := setAddrBit q.work i dir, lz := if zeroConflict b cb dir then BitVec.ofNat 8 i else q.lz }

/-- `n` bit steps of SEARCH from bit i on (40_enumeration.md R68); `none` is a (1, 1) pair, met without the write of its bit
(R74). -/
def searchBits : (n i : Nat) → SearchSeq → State → Option SearchSeq × State
  | 0, _, q, s => (some q, s)
  | n + 1, i, q, s =>
    let r := busReadBit s
    let rc := busReadBit r.2
    if r.1 && rc.1 then (none, rc.2)
    else
      let dir := chooseDir s.cur r.1 rc.1 i
      searchBits n (i + 1) (q.take i r.1 rc.1 dir) (busWriteBit dir rc.2)

/-- `fail(c)` (40_enumeration.md R76). -/
def searchFail (c : PassCause) (s : State) : State :=
  raise .noDevice { s with cur := { s.cur with done := true, cause := c } }

/-- The slot that SEARCH allocates for an address (40_enumeration.md R77). -/
def newSlot (a : Addr) : Slot :=
  { addr := a, type := classify (addrByte a 0), res := .r12, temp := 0, tvalid := false, state := .discovered }

/-- The cursor after a device is found (40_enumeration.md R77, R78). PASS goes up by one, modulo 2^16 (00_scope.md R12), with no
stop at 256 or at MAX_NUM_DEVICES (log 11). -/
def committedCursor (c : Cursor) (q : SearchSeq) : Cursor :=
  if q.lz = 0xFF then { la := q.work, ld := q.lz, done := true, cause := .lastDevice, pass := c.pass + 1 }
  else { c with la := q.work, ld := q.lz, pass := c.pass + 1 }

/-- `commit` (40_enumeration.md R77). -/
def searchCommit (q : SearchSeq) (s : State) : State :=
  finish .ok q.work (BitVec.ofNat 32 s.tblCount)
    { s with slots := s.slots ++ [newSlot q.work], cur := committedCursor s.cur q }

/-- SEARCH once the 64 bits are walked: the CRC check and commit, or the failure (40_enumeration.md R74, R75, R77). -/
def searchEnd (r : Option SearchSeq × State) : State :=
  match r.1 with
  | none => searchFail .noResponse r.2
  | some q => if addrValid r.2.params q.work then searchCommit q r.2 else searchFail .addressCrc r.2

/-- SEARCH from its first bus call on (40_enumeration.md R71, R72, R68). -/
def searchBus (s : State) : State :=
  let r := busReset s
  if r.1 then searchEnd (searchBits 64 0 ⟨0, 0xFF⟩ (busWriteByte cmdSearchRom r.2))
  else searchFail .noPresence r.2

/-- SEARCH (40_enumeration.md R68–R79). -/
def execSearch (s : State) : Host.Outcome State Fault Refusal :=
  .next (if s.cur.done then raise .noDevice (beginCommand s)
    else if s.tblCount = s.maxNumDevices then raise .tableFull (beginCommand s)
    else searchBus (beginCommand s))

/-- GET_CURSOR (40_enumeration.md R84). -/
def execGetCursor (s : State) : Host.Outcome State Fault Refusal :=
  .next (finish .ok s.cur.la (cursorAux s.cur) (beginCommand s))

end Sys2Proof.Machine
end

