-- ==== Sys2Proof/Machine/Table.lean ====
section
/-! DEFINITION. The table commands: CLEAR_TABLE, GET_SLOT_COUNT (41_device.md section 1). -/

namespace Sys2Proof.Machine

/-- CLEAR_TABLE (41_device.md R85): every slot is free; the cursor is unchanged. -/
def execClearTable (s : State) : Host.Outcome State Fault Refusal :=
  .next (finish .ok 0 0 { beginCommand s with slots := [] })

/-- GET_SLOT_COUNT (41_device.md R86). -/
def execGetSlotCount (s : State) : Host.Outcome State Fault Refusal :=
  .next (finish .ok (BitVec.ofNat 64 s.tblCount) (BitVec.ofNat 32 s.maxNumDevices) (beginCommand s))

end Sys2Proof.Machine
end

