-- ==== Sys2Proof/Machine/Temperature.lean ====
section
/-! DEFINITION. The temperature outputs: GET_CELSIUS, GET_FAHRENHEIT (41_device.md section 5). -/

namespace Sys2Proof.Machine

/-- GET_CELSIUS (41_device.md R105, 42_decoder.md R120): the cached value, in 1/16 °C. -/
def execGetCelsius (n : Nat) (s : State) : Host.Outcome State Fault Refusal :=
  .next (checkSlot n (beginCommand s) fun sl => finish .ok (sext64 sl.temp.toInt) (zextBit sl.tvalid))

/-- GET_FAHRENHEIT (41_device.md R106): the cached value, in 1/80 °F. -/
def execGetFahrenheit (n : Nat) (s : State) : Host.Outcome State Fault Refusal :=
  .next (checkSlot n (beginCommand s) fun sl => finish .ok (sext64 (fahrenheit80 sl.temp.toInt)) (zextBit sl.tvalid))

end Sys2Proof.Machine
end

