-- ==== Sys2Proof/Machine/Dispatch.lean ====
section
/-! DEFINITION. The dispatcher: one arm per command of spec/opcode_table.json. -/

namespace Sys2Proof.Machine

def exec (i : Instr) (s : State) : Host.Outcome State Fault Refusal :=
  match i with
  | .resetSearch => Sys2Proof.Machine.execResetSearch s
  | .search => Sys2Proof.Machine.execSearch s
  | .getCursor => Sys2Proof.Machine.execGetCursor s
  | .clearTable => Sys2Proof.Machine.execClearTable s
  | .getSlotCount => Sys2Proof.Machine.execGetSlotCount s
  | .getType n => Sys2Proof.Machine.execGetType n s
  | .getTypeStr n => Sys2Proof.Machine.execGetTypeStr n s
  | .getAddress n => Sys2Proof.Machine.execGetAddress n s
  | .getResolution n => Sys2Proof.Machine.execGetResolution n s
  | .getState n => Sys2Proof.Machine.execGetState n s
  | .setResolution n bits => Sys2Proof.Machine.execSetResolution n bits s
  | .retrieveData n => Sys2Proof.Machine.execRetrieveData n s
  | .getCelsius n => Sys2Proof.Machine.execGetCelsius n s
  | .getFahrenheit n => Sys2Proof.Machine.execGetFahrenheit n s

end Sys2Proof.Machine
end

