-- ==== Sys2Proof/Machine/Inputs.lean ====
section
/-! DEFINITION. What one input of the outside world does to the machine (10_state.md R27; logs 1, 12–15, 22). -/

namespace Sys2Proof.Machine

/-- The host writes a word to CMD and the command runs to its end (10_state.md R27, 30_encoding.md R48): a word that selects no
command ends ILLEGAL_COMMAND (R52). CMD keeps the word (log 18). -/
def runWord (w : Word) (s : State) : Host.Outcome State Fault Refusal :=
  match decode w with
  | .ok i => exec i { s with cmd := w }
  | .error _ => .next (illegalCommand { s with cmd := w })

/-- A command of which the call after the first `calls` calls never returns: it has no end if it makes that call
(60_exceptions.md R128), and is the command itself if it makes no more than `calls` calls (log 12). -/
def stalled (calls : Nat) : Host.Outcome State Fault Refusal → Host.Outcome State Fault Refusal
  | .next t => if calls < t.trace.length then .fault .primitiveNeverReturned else .next t
  | .fault r => .fault r
  | .refused r => .refused r

/-- One input, already taken off the list of inputs. -/
def takeInput (inp : Input) (s : State) : Host.Outcome State Fault Refusal :=
  match inp with
  | .command w => runWord w s
  | .powerOn => .next (powerOn s)
  | .environment e => .next { s with env := e }
  | .commandStalls w calls => stalled calls (runWord w s)
  | .powerOnDuring _ => .refused .powerOnDuringCommand
  | .commandDuring _ _ => .refused .commandDuringCommand
  | .outOfScope f => .refused (.functionOutOfScope f)

/-- One step: the next input. With no input the block waits for the host and nothing changes (log 2). -/
def nextInput (s : State) : Host.Outcome State Fault Refusal :=
  match s.inputs with
  | [] => .next s
  | inp :: rest => takeInput inp { s with inputs := rest }

end Sys2Proof.Machine
end

