-- ==== Sys2Proof/Machine/Step.lean ====
section
/-! DEFINITION. The step, and how a command word is placed where the next step takes it. -/

namespace Sys2Proof.Machine

/-- One step of the machine: one input of the outside world, a command being one atomic step (00_scope.md R9). -/
def step (s : State) : Host.Outcome State Fault Refusal := nextInput s

/-- The host's next write to CMD is this word (log 1): the very next step runs it. -/
def State.withFetchWord (s : State) (nbits w : Nat) : State :=
  { s with inputs := .command (tableWord nbits w) :: s.inputs }

end Sys2Proof.Machine
end

