-- ==== Sys2Proof/Machine/HostProgram.lean ====
section
/-! DEFINITION. The host's side of the command interface: assembler lines (30_encoding.md R64; log 20), the pseudo-instructions
the host's assembler expands (R65), and the pass they stand for. The block never sees any of it. -/

namespace Sys2Proof.Machine

/-- The pseudo-instructions (30_encoding.md R65). -/
inductive Pseudo where
  | enumerate
  | measure (slot : Nat)
  | measureF (slot : Nat)
deriving DecidableEq, Repr

/-- What a line of assembler is (30_encoding.md R64, R65). -/
inductive AsmLine where
  /-- Nothing, or only a comment. -/
  | blank
  /-- A command, with its word. -/
  | command (w : Word)
  | pseudo (p : Pseudo)
  /-- Not a line of the syntax, or an operand outside 0..255. -/
  | rejected
deriving DecidableEq, Repr

/-- A token that ends here, if it has any character. -/
def endToken (tok : List Char) (rest : List (List Char)) : List (List Char) :=
  if tok.isEmpty then rest else tok :: rest

/-- The tokens of a line, `tok` being the one under way: words apart by spaces or tabs, a comma a token of its own, and `;` the
start of a comment (30_encoding.md R64; log 20). -/
def tokens : List Char → List Char → List (List Char)
  | [], tok => endToken tok []
  | c :: rest, tok =>
    if c = ';' then endToken tok []
    else if c = ' ' ∨ c = '\t' then endToken tok (tokens rest [])
    else if c = ',' then endToken tok ([','] :: tokens rest [])
    else tokens rest (tok ++ [c])

/-- The value of a digit in a base of at most 16. -/
def digitValue (base : Nat) (c : Char) : Option Nat :=
  let v :=
    if '0' ≤ c ∧ c ≤ '9' then c.toNat - '0'.toNat
    else if 'a' ≤ c ∧ c ≤ 'f' then c.toNat - 'a'.toNat + 10
    else if 'A' ≤ c ∧ c ≤ 'F' then c.toNat - 'A'.toNat + 10
    else base
  if v < base then some v else none

/-- Digits most significant first, after the value `acc`. -/
def digitsValue (base acc : Nat) : List Char → Option Nat
  | [] => some acc
  | c :: rest =>
    match digitValue base c with
    | none => none
    | some v => digitsValue base (acc * base + v) rest

/-- A number: decimal, or hex after `0x` (30_encoding.md R64), with at least one digit. -/
def numberValue : List Char → Option Nat
  | [] => none
  | ['0', 'x'] => none
  | '0' :: 'x' :: digits => digitsValue 16 0 digits
  | digits => digitsValue 10 0 digits

/-- The operand of an assembler line: a number in 0..255 (30_encoding.md R64). -/
def operandValue (tok : List Char) : Option Nat :=
  match numberValue tok with
  | none => none
  | some v => if fitsField v then some v else none

/-- The mnemonics without operands (30_encoding.md R51, R65). -/
def plainLine (m : List Char) : AsmLine :=
  if m = "RESET_SEARCH".toList then .command (encode .resetSearch)
  else if m = "SEARCH".toList then .command (encode .search)
  else if m = "GET_CURSOR".toList then .command (encode .getCursor)
  else if m = "CLEAR_TABLE".toList then .command (encode .clearTable)
  else if m = "GET_SLOT_COUNT".toList then .command (encode .getSlotCount)
  else if m = "ENUMERATE".toList then .pseudo .enumerate
  else .rejected

/-- The mnemonics with a slot index (30_encoding.md R51, R65). -/
def slotLine (m : List Char) (n : Nat) : AsmLine :=
  if m = "GET_TYPE".toList then .command (encode (.getType n))
  else if m = "GET_TYPE_STR".toList then .command (encode (.getTypeStr n))
  else if m = "GET_ADDRESS".toList then .command (encode (.getAddress n))
  else if m = "GET_RESOLUTION".toList then .command (encode (.getResolution n))
  else if m = "GET_STATE".toList then .command (encode (.getState n))
  else if m = "RETRIEVE_DATA".toList then .command (encode (.retrieveData n))
  else if m = "GET_CELSIUS".toList then .command (encode (.getCelsius n))
  else if m = "GET_FAHRENHEIT".toList then .command (encode (.getFahrenheit n))
  else if m = "MEASURE".toList then .pseudo (.measure n)
  else if m = "MEASURE_F".toList then .pseudo (.measureF n)
  else .rejected

/-- SET_RESOLUTION, the mnemonic with a slot index and a resolution (30_encoding.md R51). -/
def slotBitsLine (m : List Char) (n bits : Nat) : AsmLine :=
  if m = "SET_RESOLUTION".toList then .command (encode (.setResolution n bits)) else .rejected

/-- The assembler on the tokens of one line (30_encoding.md R64). -/
def assembleTokens : List (List Char) → AsmLine
  | [] => .blank
  | [m] => plainLine m
  | [m, x] =>
    match operandValue x with
    | none => .rejected
    | some n => slotLine m n
  | [m, x, comma, y] =>
    match comma == [','], operandValue x, operandValue y with
    | true, some n, some bits => slotBitsLine m n bits
    | _, _, _ => .rejected
  | _ => .rejected

/-- The assembler on one line (30_encoding.md R64). -/
def assemble (line : List Char) : AsmLine := assembleTokens (tokens line [])

/-- The words MEASURE and MEASURE_F expand to (30_encoding.md R65); ENUMERATE is a loop, `enumerate`, with no fixed list. -/
def Pseudo.words : Pseudo → List Word
  | .enumerate => []
  | .measure n => [encode (.retrieveData n), encode (.getCelsius n)]
  | .measureF n => [encode (.retrieveData n), encode (.getFahrenheit n)]

/-- SEARCH repeated while STATUS = OK, at most `n` times (30_encoding.md R65): the RDATA of each OK, in order, and the last state. -/
def searchWhileOk : Nat → State → List Addr × State
  | 0, s => ([], s)
  | n + 1, s =>
    match runWord (encode .search) s with
    | .next t =>
      if t.status = statusCode .ok then (t.rdata :: (searchWhileOk n t).1, (searchWhileOk n t).2) else ([], t)
    | .fault _ => ([], s)
    | .refused _ => ([], s)

/-- ENUMERATE (30_encoding.md R65): RESET_SEARCH, then SEARCH while STATUS = OK, at most `n` times. -/
def enumerate (n : Nat) (s : State) : List Addr × State :=
  match runWord (encode .resetSearch) s with
  | .next t => searchWhileOk n t
  | .fault _ => ([], s)
  | .refused _ => ([], s)

end Sys2Proof.Machine
end

