-- ==== Sys2Proof/Safety.lean ====
section
/-! DEFINITION. What a safe run keeps, and the words in which claims speak of the block: the invariant of 10_state.md R19, R20, R22
and R25, and the shapes of searches and transactions as the rules list them. -/

namespace Sys2Proof.Machine

/-- The cursor between commands: CUR.LD in −1..63 (10_state.md R19) and R20 (a) to (d). R19's bound on CUR.PASS is left out: it
does not hold of the commands after a CLEAR_TABLE in the pass (log 11). -/
abbrev Cursor.Ok (p : Params) (c : Cursor) : Prop :=
  (-1 ≤ c.ld.toInt ∧ c.ld.toInt ≤ 63) ∧
  (c.done = false → c.cause = .notOver) ∧
  (c.done = true → c.cause ≠ .notOver) ∧
  (c.done = false → 0 < c.pass.toNat → 0 ≤ c.ld.toInt) ∧
  (0 < c.pass.toNat → addrValid p c.la = true)

/-- An occupied slot between commands (10_state.md R25; its (c) holds by the type of `res`). -/
abbrev Slot.Ok (p : Params) (sl : Slot) : Prop :=
  addrValid p sl.addr = true ∧
  sl.type = classify (addrByte sl.addr 0) ∧
  (sl.type = .ds18s20 ∨ sl.type = .unknown → sl.res = .r12) ∧
  (sl.tvalid = false → sl.temp = 0) ∧
  sl.state ≠ .converting

/-- The invariant: cursor, slots, TBL.COUNT ≤ MAX_NUM_DEVICES (10_state.md R22), STATUS one of the nine codes (30_encoding.md R54). -/
abbrev State.Inv (s : State) : Prop :=
  s.cur.Ok s.params ∧ (∀ sl ∈ s.slots, sl.Ok s.params) ∧ s.tblCount ≤ s.maxNumDevices ∧ s.status.toNat ≤ 8

/-- The direction at bit i, read off 40_enumeration.md R73 case by case; (1, 1) takes no direction. -/
def direction (la : Addr) (ld : Int) (b cb : Bool) (i : Nat) : Bool :=
  match b, cb with
  | true, false => true
  | false, true => false
  | false, false => if (i : Int) < ld then la.getLsbD i else decide ((i : Int) = ld)
  | true, true => false

/-- The answers to the two reads of each of the bits 0..n−1 (40_enumeration.md R68). -/
def searchAnswers (b cb : Nat → Bool) (n : Nat) : List Bool :=
  (List.range n).flatMap fun i => [b i, cb i]

/-- The bus calls of the bits 0..n−1: read, read, write (40_enumeration.md R68). -/
def searchTrace (b cb dir : Nat → Bool) (n : Nat) : List BusEvent :=
  (List.range n).flatMap fun i => [.readBit (b i), .readBit (cb i), .writeBit (dir i)]

/-- `lz` is the last bit with a conflict that took the 0 branch, −1 if there is none (10_state.md R21, 40_enumeration.md R73). -/
def IsLastZeroConflict (b cb : Nat → Bool) (a : Addr) (lz : BitVec 8) : Prop :=
  (lz = 0xFF ∧ ∀ i < 64, ¬ (b i = false ∧ cb i = false ∧ a.getLsbD i = false)) ∨
  ∃ j < 64, lz = BitVec.ofNat 8 j ∧ (b j = false ∧ cb j = false ∧ a.getLsbD j = false) ∧
    ∀ i < 64, j < i → ¬ (b i = false ∧ cb i = false ∧ a.getLsbD i = false)

/-- BusReset, Match ROM and the 8 address bytes (41_device.md R92, R99), the presence bit being `p`. -/
def matchTrace (p : Bool) (a : Addr) : List BusEvent :=
  .reset p :: .writeByte 0x55 :: (List.range 8).map fun k => .writeByte (a.extractLsb' (8 * k) 8)

/-- The conversion waits as 41_device.md R101 lists them, in milliseconds. -/
def conversionWait : Resolution → Nat
  | .r9 => 94
  | .r10 => 188
  | .r11 => 375
  | .r12 => 750

/-- The decode of 42_decoder.md R110: by the slot's type, on the field with byte 1 above byte 0 (20_memory.md R36), at the slot's
resolution or under the instance's layout. -/
def decodedReading (p : Params) (sl : Slot) (sp : Scratchpad) : Option Int :=
  let field := BitVec.ofNat 16 (sp.b1.toNat * 256 + sp.b0.toNat)
  match sl.type with
  | .ds18b20 => some (decodeB20 sl.res field)
  | .ds1822 => some (decodeB20 sl.res field)
  | .ds18s20 => decodeS20 p.layout field sp
  | .unknown => none

/-- The 31 bus calls and the Delay of RETRIEVE_DATA (41_device.md R99, R101), the presence bits being `p` and `q`. -/
def retrieveTrace (sl : Slot) (p q : Bool) (sp : Scratchpad) : List BusEvent :=
  matchTrace p sl.addr ++ [.writeByte 0x44, .delay (conversionWait sl.res)] ++ matchTrace q sl.addr ++ [.writeByte 0xBE]
    ++ (padBytes sp).map .readByte

/-- The trace entries that are bus calls, which a Delay is not (60_exceptions.md R128). -/
def busCalls (tr : List BusEvent) : Nat :=
  (tr.filter fun e => match e with | .delay _ => false | _ => true).length

/-- The most bus calls a command makes (60_exceptions.md R128). -/
def busCallBound : Instr → Nat
  | .search => 194
  | .setResolution _ _ => 14
  | .retrieveData _ => 31
  | .resetSearch => 0
  | .getCursor => 0
  | .clearTable => 0
  | .getSlotCount => 0
  | .getType _ => 0
  | .getTypeStr _ => 0
  | .getAddress _ => 0
  | .getResolution _ => 0
  | .getState _ => 0
  | .getCelsius _ => 0
  | .getFahrenheit _ => 0

/-- The slot index a per-device command names (30_encoding.md R51). -/
def slotOperand : Instr → Option Nat
  | .getType n => some n
  | .getTypeStr n => some n
  | .getAddress n => some n
  | .getResolution n => some n
  | .getState n => some n
  | .setResolution n _ => some n
  | .retrieveData n => some n
  | .getCelsius n => some n
  | .getFahrenheit n => some n
  | .resetSearch => none
  | .search => none
  | .getCursor => none
  | .clearTable => none
  | .getSlotCount => none

/-- The commands that write the cursor (10_state.md R19). -/
def writesCursor (i : Instr) : Bool := i == .resetSearch || i == .search

/-- The status codes each command can end with (60_exceptions.md R123; 30_encoding.md R54). -/
def statusesOf : Instr → List Nat
  | .search => [0x00, 0x01, 0x06]
  | .setResolution _ _ => [0x00, 0x04, 0x05, 0x07]
  | .retrieveData _ => [0x00, 0x02, 0x03, 0x05, 0x07]
  | .getType _ => [0x00, 0x07]
  | .getTypeStr _ => [0x00, 0x07]
  | .getAddress _ => [0x00, 0x07]
  | .getResolution _ => [0x00, 0x07]
  | .getState _ => [0x00, 0x07]
  | .getCelsius _ => [0x00, 0x07]
  | .getFahrenheit _ => [0x00, 0x07]
  | .resetSearch => [0x00]
  | .getCursor => [0x00]
  | .clearTable => [0x00]
  | .getSlotCount => [0x00]

/-- The register values of 70_reset_and_hazards.md R136. -/
structure RegistersAtPowerOn (t : State) : Prop where
  la     : t.cur.la = 0
  ld     : t.cur.ld.toInt = -1
  done   : t.cur.done = false
  cause  : t.cur.cause = .notOver
  pass   : t.cur.pass = 0
  count  : t.tblCount = 0
  cmd    : t.cmd = 0
  status : t.status = 0x00
  rdata  : t.rdata = 0
  raux   : t.raux = 0

end Sys2Proof.Machine
end

