-- ==== Sys2Proof/Certificates/Slice0/Obligations.lean ====
section
/-! DEFINITION. The statements for the provers. A statement about a command has the command's whole next state, or its whole frame,
as its conclusion. "log n" is notes/assumptions/n.md. -/

open Sys2Proof Sys2Proof.Machine

/-! ## Reset, inputs, steps -/

/-- 70_reset_and_hazards.md R135, R136. -/
def Obligations.PowerOnSetsEveryRegister : Prop :=
  (∀ s : State, RegistersAtPowerOn (powerOn s)) ∧ RegistersAtPowerOn State.reset

/-- R137: nothing is sent, the sensors and the instance stay. That power-on comes as an input is the model's (log 13). -/
def Obligations.PowerOnInputLeavesTheBusAlone : Prop :=
  ∀ (s : State) (rest : List Input), s.inputs = .powerOn :: rest →
    ∃ t, step s = .next t ∧ RegistersAtPowerOn t ∧ t.trace = [] ∧ t.env = s.env ∧ t.draws = s.draws ∧
      t.params = s.params ∧ t.inputs = rest

/-- The invariant at power-on, in every instance and every outside world, and at reset. -/
def Obligations.PowerOnMeetsInvariant : Prop :=
  (∀ (p : Params) (ins : List Input) (e : Env) (k : Nat), (State.powerOnWith p ins e k).Inv) ∧ State.reset.Inv

/-- 10_state.md R19 (CUR.LD), R20, R22, R25, 30_encoding.md R54: every step keeps them, whatever the environment answers. -/
def Obligations.StepKeepsInvariant : Prop :=
  ∀ s t : State, s.Inv → step s = .next t → t.Inv

/-- A step runs the command the word in CMD decodes to. That words come as a list of inputs is the model's (log 1). -/
def Obligations.StepRunsTheDecodedCommand : Prop :=
  ∀ (s : State) (w : Word) (rest : List Input) (i : Instr),
    s.inputs = .command w :: rest → decode w = .ok i → step s = exec i { s with inputs := rest, cmd := w }

/-- 30_encoding.md R52: a word that matches no row ends ILLEGAL_COMMAND with no other effect. The list of inputs (log 1) and that
CMD keeps the word (log 18) are the model's. -/
def Obligations.IllegalWordHasNoOtherEffect : Prop :=
  ∀ (s : State) (w : Word) (rest : List Input),
    s.inputs = .command w :: rest → (∀ row ∈ opcodeRows, w &&& row.2 ≠ row.1) →
    step s = .next { s with inputs := rest, cmd := w, status := 0x08, rdata := 0, raux := 0, trace := [] }

/-- The inputs the spec gives no step (R138, R146, R7), a primitive that never returns (R128), the wait for the host, and a bus that
changes between commands (R82): the model's choices (logs 2, 12, 13, 14, 15, 22). -/
def Obligations.InputsWithoutACommandStep : Prop :=
  ∀ (s : State) (rest : List Input),
    (s.inputs = [] → step s = .next s) ∧
    (∀ w, s.inputs = .powerOnDuring w :: rest → step s = .refused .powerOnDuringCommand) ∧
    (∀ w v, s.inputs = .commandDuring w v :: rest → step s = .refused .commandDuringCommand) ∧
    (∀ f, s.inputs = .outOfScope f :: rest → step s = .refused (.functionOutOfScope f)) ∧
    (∀ e, s.inputs = .environment e :: rest → step s = .next { s with inputs := rest, env := e }) ∧
    (∀ w k t, s.inputs = .commandStalls w k :: rest → runWord w { s with inputs := rest } = .next t →
      step s = if k < t.trace.length then .fault .primitiveNeverReturned else .next t)

/-! ## Encoding -/

/-- Every well-formed command's word decodes to it, with every operand value. -/
def Obligations.DecodeOfEncode : Prop :=
  ∀ i : Instr, i.wf = true → decode (encode i) = .ok i

/-- Each accepted word is the word of exactly one command, and that command is well formed. -/
def Obligations.EncodeOfDecode : Prop :=
  ∀ (w : Word) (i : Instr), decode w = .ok i → encode i = w ∧ i.wf = true

/-- 30_encoding.md R51, its last sentence: a word selects a command iff it matches a row under the row's mask; no word matches
two rows. -/
def Obligations.DecodeAcceptsExactlyTheOpcodeRows : Prop :=
  (∀ w : Word, (∃ i, decode w = .ok i) ↔ ∃ row ∈ opcodeRows, w &&& row.2 = row.1) ∧
  ∀ w : Word, (opcodeRows.filter fun row => w &&& row.2 == row.1).length ≤ 1

/-- Words written out from 30_encoding.md R49 and R51, with their commands. -/
def Obligations.WrittenOutWordsDecode : Prop :=
  decode 0x00000001 = .ok .resetSearch ∧ decode 0x00000002 = .ok .search ∧ decode 0x00000003 = .ok .getCursor ∧
  decode 0x00000008 = .ok .clearTable ∧ decode 0x00000009 = .ok .getSlotCount ∧ decode 0x00000310 = .ok (.getType 3) ∧
  decode 0x000D0220 = .ok (.setResolution 2 13) ∧ decode 0x0000FF21 = .ok (.retrieveData 255) ∧
  decode 0x00000331 = .ok (.getFahrenheit 3) ∧ decode 0x00000102 = .error .slotNonzero

/-- 30_encoding.md R64: its four examples, a comment, a hexadecimal operand, an operand out of range; and the words of R65's MEASURE
and MEASURE_F. That a blank may stand before the comment and that hexadecimal digits may be capitals is the model's choice
(log 20). -/
def Obligations.AssemblerEncodesLines : Prop :=
  assemble "RESET_SEARCH".toList = .command 0x00000001 ∧ assemble "SEARCH".toList = .command 0x00000002 ∧
  assemble "SEARCH ; next device".toList = .command 0x00000002 ∧
  assemble "GET_TYPE 0".toList = .command 0x00000010 ∧ assemble "SET_RESOLUTION 1, 10".toList = .command 0x000A0120 ∧
  assemble "GET_TYPE 0x1F".toList = .command 0x00001F10 ∧ assemble "GET_TYPE 256".toList = .rejected ∧
  (∀ n : Nat, (Pseudo.measure n).words = [encode (.retrieveData n), encode (.getCelsius n)] ∧
    (Pseudo.measureF n).words = [encode (.retrieveData n), encode (.getFahrenheit n)])

/-! ## Enumeration -/

/-- 40_enumeration.md R66. -/
def Obligations.ResetSearchResult : Prop :=
  ∀ s : State, exec .resetSearch s =
    .next { s with cur := { la := 0, ld := 0xFF, done := false, cause := .notOver, pass := 0 },
                   status := 0x00, rdata := 0, raux := 0, trace := [] }

/-- 40_enumeration.md R84: each field of RAUX. -/
def Obligations.GetCursorResult : Prop :=
  ∀ s : State, ∃ x : BitVec 32,
    exec .getCursor s = .next { s with status := 0x00, rdata := s.cur.la, raux := x, trace := [] } ∧
    x.extractLsb' 16 16 = s.cur.pass ∧ x.extractLsb' 12 4 = 0 ∧
    (x.extractLsb' 9 3).toNat = (match s.cur.cause with
      | .notOver => 0 | .lastDevice => 1 | .noPresence => 2 | .noResponse => 3 | .addressCrc => 4) ∧
    x.getLsbD 8 = s.cur.done ∧ x.extractLsb' 0 8 = s.cur.ld

/-- 40_enumeration.md R69; whatever the table holds (60_exceptions.md R124, 5). -/
def Obligations.SearchAfterThePassIsOver : Prop :=
  ∀ s : State, s.cur.done = true →
    exec .search s = .next { s with status := 0x01, rdata := 0, raux := 0, trace := [] }

/-- 40_enumeration.md R70. -/
def Obligations.SearchWithAFullTable : Prop :=
  ∀ s : State, s.cur.done = false → s.slots.length = s.params.lastSlot.val + 1 →
    exec .search s = .next { s with status := 0x06, rdata := 0, raux := 0, trace := [] }

/-- 40_enumeration.md R71: one bus call, and the pass is over. -/
def Obligations.SearchWithoutPresence : Prop :=
  ∀ (s : State) (ps bits : List Bool) (bytes : List Byte),
    s.cur.done = false → s.slots.length ≠ s.params.lastSlot.val + 1 → s.env = .answers (false :: ps) bits bytes →
    exec .search s =
      .next { s with cur := { s.cur with done := true, cause := .noPresence }, status := 0x01, rdata := 0, raux := 0,
                     trace := [.reset false], env := .answers ps bits bytes }

/-- 40_enumeration.md R68, R73, R77, R78: SEARCH on any 64 pairs of answers without (1, 1) whose directions make a valid address. -/
def Obligations.SearchYieldsTheAssembledDevice : Prop :=
  ∀ (s : State) (ps rest : List Bool) (bytes : List Byte) (b cb : Nat → Bool) (a : Addr) (lz : BitVec 8),
    s.cur.done = false → s.slots.length ≠ s.params.lastSlot.val + 1 →
    s.env = .answers (true :: ps) (searchAnswers b cb 64 ++ rest) bytes →
    (∀ i < 64, ¬(b i = true ∧ cb i = true)) →
    (∀ i < 64, a.getLsbD i = direction s.cur.la s.cur.ld.toInt (b i) (cb i) i) →
    IsLastZeroConflict b cb a lz → addrValid s.params a = true →
    exec .search s =
      .next { s with
        slots := s.slots ++ [{ addr := a, type := classify (a.extractLsb' 0 8), res := .r12, temp := 0, tvalid := false,
                               state := .discovered }],
        cur := { la := a, ld := lz, done := decide (lz.toInt = -1),
                 cause := if lz.toInt = -1 then .lastDevice else s.cur.cause, pass := s.cur.pass + 1 },
        status := 0x00, rdata := a, raux := BitVec.ofNat 32 s.slots.length,
        trace := .reset true :: .writeByte 0xF0 :: searchTrace b cb (fun i => a.getLsbD i) 64,
        env := .answers ps rest bytes }

/-- 40_enumeration.md R74: a (1, 1) pair at bit j, the lowest one, ends the pass after 2 + 3j + 2 bus calls. -/
def Obligations.SearchWithNoResponse : Prop :=
  ∀ (s : State) (ps rest : List Bool) (bytes : List Byte) (b cb : Nat → Bool) (j : Nat),
    s.cur.done = false → s.slots.length ≠ s.params.lastSlot.val + 1 → j < 64 →
    s.env = .answers (true :: ps) (searchAnswers b cb (j + 1) ++ rest) bytes →
    (∀ i < j, ¬(b i = true ∧ cb i = true)) → b j = true → cb j = true →
    exec .search s =
      .next { s with
        cur := { s.cur with done := true, cause := .noResponse }, status := 0x01, rdata := 0, raux := 0,
        trace := .reset true :: .writeByte 0xF0 ::
          (searchTrace b cb (fun i => direction s.cur.la s.cur.ld.toInt (b i) (cb i) i) j ++ [.readBit true, .readBit true]),
        env := .answers ps rest bytes }

/-- 40_enumeration.md R75, R76: an assembled address with a wrong CRC ends the pass and is discarded. -/
def Obligations.SearchWithABadAddressCrc : Prop :=
  ∀ (s : State) (ps rest : List Bool) (bytes : List Byte) (b cb : Nat → Bool) (a : Addr),
    s.cur.done = false → s.slots.length ≠ s.params.lastSlot.val + 1 →
    s.env = .answers (true :: ps) (searchAnswers b cb 64 ++ rest) bytes →
    (∀ i < 64, ¬(b i = true ∧ cb i = true)) →
    (∀ i < 64, a.getLsbD i = direction s.cur.la s.cur.ld.toInt (b i) (cb i) i) →
    addrValid s.params a = false →
    exec .search s =
      .next { s with
        cur := { s.cur with done := true, cause := .addressCrc }, status := 0x01, rdata := 0, raux := 0,
        trace := .reset true :: .writeByte 0xF0 :: searchTrace b cb (fun i => a.getLsbD i) 64,
        env := .answers ps rest bytes }

/-- SEARCH on any environment whatsoever, the free one and the reference bus among them: it ends, with a failure or a device. -/
def Obligations.SearchEndsInEveryEnvironment : Prop :=
  ∀ s : State, s.cur.done = false → s.slots.length ≠ s.params.lastSlot.val + 1 →
    ∃ t, exec .search s = .next t ∧ t.params = s.params ∧ t.cmd = s.cmd ∧ t.inputs = s.inputs ∧
      ((∃ c, (c = .noPresence ∨ c = .noResponse ∨ c = .addressCrc) ∧ t.cur = { s.cur with done := true, cause := c } ∧
          t.slots = s.slots ∧ t.status = 0x01 ∧ t.rdata = 0 ∧ t.raux = 0) ∨
       (∃ (a : Addr) (lz : BitVec 8), addrValid s.params a = true ∧ -1 ≤ lz.toInt ∧ lz.toInt ≤ 63 ∧
          t.slots = s.slots ++ [{ addr := a, type := classify (a.extractLsb' 0 8), res := .r12, temp := 0, tvalid := false,
                                  state := .discovered }] ∧
          t.cur = { la := a, ld := lz, done := decide (lz.toInt = -1),
                    cause := if lz.toInt = -1 then .lastDevice else s.cur.cause, pass := s.cur.pass + 1 } ∧
          t.status = 0x00 ∧ t.rdata = a ∧ t.raux = BitVec.ofNat 32 s.slots.length))

/-- 40_enumeration.md R79: a bus held low yields the all-zero address, type UNKNOWN, under the default CRC-8. -/
def Obligations.BusHeldLowYieldsTheAllZeroAddress : Prop :=
  ∀ (s : State) (ps rest : List Bool) (bytes : List Byte),
    s.cur.done = false → s.cur.ld.toInt = -1 → s.slots.length ≠ s.params.lastSlot.val + 1 → s.params.crc = .dallasMaxim →
    s.env = .answers (true :: ps) (List.replicate 128 false ++ rest) bytes →
    ∃ t, exec .search s = .next t ∧
      t.slots = s.slots ++ [{ addr := 0, type := .unknown, res := .r12, temp := 0, tvalid := false, state := .discovered }] ∧
      t.cur = { la := 0, ld := 63, done := false, cause := s.cur.cause, pass := s.cur.pass + 1 } ∧
      t.status = 0x00 ∧ t.rdata = 0

/-- 60_exceptions.md R128: the bus calls of every command, in every environment; only RETRIEVE_DATA adds a Delay. -/
def Obligations.CommandsStayWithinTheirBusCalls : Prop :=
  ∀ (i : Instr) (s t : State), exec i s = .next t →
    busCalls t.trace ≤ busCallBound i ∧ t.trace.length ≤ busCalls t.trace + 1 ∧
    ((∀ n, i ≠ .retrieveData n) → t.trace.length = busCalls t.trace)

/-- 10_state.md R19: only RESET_SEARCH and SEARCH write the cursor. -/
def Obligations.OnlySearchCommandsWriteTheCursor : Prop :=
  ∀ (i : Instr) (s t : State), writesCursor i = false → exec i s = .next t → t.cur = s.cur

/-- 40_enumeration.md R83, 10_state.md R19: no command but RESET_SEARCH, SEARCH and GET_CURSOR reads the cursor. -/
def Obligations.CursorIsUnreadByOtherCommands : Prop :=
  ∀ (i : Instr) (s t : State) (c : Cursor), writesCursor i = false → i ≠ .getCursor → exec i s = .next t →
    exec i { s with cur := c } = .next { t with cur := c }

/-- A finding (log 11). Where R19 gives its reason, that every increment comes with an allocation, it holds: every command but
CLEAR_TABLE keeps CUR.PASS ≤ TBL.COUNT. CLEAR_TABLE (R85) leaves CUR.PASS alone, so a pass that had filled the table goes on (R70)
to a CUR.PASS above MAX_NUM_DEVICES, as in the spec's program P5. -/
def Obligations.PassCountCanExceedTheTableSize : Prop :=
  (∀ (i : Instr) (s t : State), i ≠ .clearTable → s.cur.pass.toNat ≤ s.tblCount → exec i s = .next t →
    t.cur.pass.toNat ≤ t.tblCount) ∧
  (∀ s u t : State, s.cur.pass.toNat = s.maxNumDevices → s.tblCount = s.maxNumDevices → exec .clearTable s = .next u →
    exec .search u = .next t → t.status = 0x00 → t.cur.pass.toNat = s.maxNumDevices + 1) ∧
  ∃ s u t : State, s.Inv ∧ s.cur.pass.toNat = s.maxNumDevices ∧ s.tblCount = s.maxNumDevices ∧
    exec .clearTable s = .next u ∧ exec .search u = .next t ∧ t.status = 0x00 ∧ t.Inv ∧ t.maxNumDevices < t.cur.pass.toNat

/-- 40_enumeration.md R81 (a), with room for one device: on a full table R70 comes first (log 23). -/
def Obligations.EmptyBusEnumeration : Prop :=
  ∀ (s : State) (bus : RefBus), s.env = .reference bus → bus.sensors = [] → s.tblCount < s.maxNumDevices →
    (enumerate 1 s).1 = [] ∧ (enumerate 1 s).2.status = 0x01 ∧ (enumerate 1 s).2.cur.cause = .noPresence ∧
      (enumerate 1 s).2.slots = s.slots

/-- 40_enumeration.md R81 (b): on the reference bus with a fixed set of distinct valid addresses, a pass yields every address once,
in ascending K, and the next SEARCH ends NO_DEVICE. -/
def Obligations.EnumerationYieldsEveryDeviceOnceInOrder : Prop :=
  ∀ (s : State) (bus : RefBus), s.env = .reference bus → bus.sensors ≠ [] → (bus.sensors.map (·.addr)).Nodup →
    s.tblCount + bus.sensors.length ≤ s.maxNumDevices → (∀ d ∈ bus.sensors, addrValid s.params d.addr = true) →
    ((enumerate (bus.sensors.length + 1) s).1.Perm (bus.sensors.map (·.addr)) ∧
      (enumerate (bus.sensors.length + 1) s).1.Pairwise (fun a b => orderKey a < orderKey b) ∧
      (enumerate (bus.sensors.length + 1) s).2.status = 0x01 ∧
      (enumerate (bus.sensors.length + 1) s).2.cur.cause = .lastDevice ∧
      (enumerate (bus.sensors.length + 1) s).2.slots.map (·.addr) =
        s.slots.map (·.addr) ++ (enumerate (bus.sensors.length + 1) s).1)

/-- 40_enumeration.md R81 (c): with invalid addresses on the reference bus, a pass yields, in ascending K, exactly the addresses
whose K is below that of every invalid one, and ends ADDRESS_CRC. -/
def Obligations.EnumerationStopsAtTheFirstInvalidAddress : Prop :=
  ∀ (s : State) (bus : RefBus), s.env = .reference bus → (bus.sensors.map (·.addr)).Nodup →
    s.tblCount + bus.sensors.length ≤ s.maxNumDevices → (∃ d ∈ bus.sensors, addrValid s.params d.addr = false) →
    ((∀ a, a ∈ (enumerate (bus.sensors.length + 1) s).1 ↔
        a ∈ bus.sensors.map (·.addr) ∧
          ∀ d ∈ bus.sensors, addrValid s.params d.addr = false → orderKey a < orderKey d.addr) ∧
      (enumerate (bus.sensors.length + 1) s).1.Pairwise (fun a b => orderKey a < orderKey b) ∧
      (enumerate (bus.sensors.length + 1) s).2.status = 0x01 ∧
      (enumerate (bus.sensors.length + 1) s).2.cur.cause = .addressCrc)

/-! ## Table and accessors -/

/-- 41_device.md R85. -/
def Obligations.ClearTableResult : Prop :=
  ∀ s : State, exec .clearTable s = .next { s with slots := [], status := 0x00, rdata := 0, raux := 0, trace := [] }

/-- 41_device.md R86; MAX_NUM_DEVICES is the last slot's index plus one (log 5). -/
def Obligations.GetSlotCountResult : Prop :=
  ∀ s : State, exec .getSlotCount s =
    .next { s with status := 0x00, rdata := BitVec.ofNat 64 s.slots.length,
                   raux := BitVec.ofNat 32 (s.params.lastSlot.val + 1), trace := [] }

/-- 41_device.md R87, 30_encoding.md R56. -/
def Obligations.GetTypeResult : Prop :=
  ∀ (s : State) (n : Nat) (sl : Slot), s.slots[n]? = some sl →
    exec (.getType n) s =
      .next { s with status := 0x00, raux := 0, trace := [],
                     rdata := match sl.type with | .unknown => 0 | .ds18s20 => 1 | .ds18b20 => 2 | .ds1822 => 3 }

/-- 41_device.md R88, 30_encoding.md R57: the ASCII names and their lengths. -/
def Obligations.GetTypeStrResult : Prop :=
  ∀ (s : State) (n : Nat) (sl : Slot), s.slots[n]? = some sl →
    exec (.getTypeStr n) s =
      .next { s with status := 0x00, trace := [],
                     rdata := match sl.type with
                       | .unknown => 0x004E574F4E4B4E55 | .ds18s20 => 0x0030325338315344
                       | .ds18b20 => 0x0030324238315344 | .ds1822 => 0x0000323238315344,
                     raux := match sl.type with | .unknown => 7 | .ds18s20 => 7 | .ds18b20 => 7 | .ds1822 => 6 }

/-- 41_device.md R89. -/
def Obligations.GetAddressResult : Prop :=
  ∀ (s : State) (n : Nat) (sl : Slot), s.slots[n]? = some sl →
    exec (.getAddress n) s = .next { s with status := 0x00, rdata := sl.addr, raux := 0, trace := [] }

/-- 41_device.md R90. -/
def Obligations.GetResolutionResult : Prop :=
  ∀ (s : State) (n : Nat) (sl : Slot), s.slots[n]? = some sl →
    exec (.getResolution n) s =
      .next { s with status := 0x00, raux := 0, trace := [],
                     rdata := match sl.res with | .r9 => 9 | .r10 => 10 | .r11 => 11 | .r12 => 12 }

/-- 41_device.md R91, 30_encoding.md R58. -/
def Obligations.GetStateResult : Prop :=
  ∀ (s : State) (n : Nat) (sl : Slot), s.slots[n]? = some sl →
    exec (.getState n) s =
      .next { s with status := 0x00, trace := [],
                     rdata := match sl.state with | .discovered => 0 | .configured => 1 | .converting => 2 | .ready => 3,
                     raux := if sl.tvalid then 1 else 0 }

/-- 60_exceptions.md R122: every per-device command on a free slot, with every other operand. -/
def Obligations.FreeSlotEndsBadSlot : Prop :=
  ∀ (s : State) (i : Instr) (n : Nat), slotOperand i = some n → s.slots.length ≤ n →
    exec i s = .next { s with status := 0x07, rdata := 0, raux := 0, trace := [] }

/-! ## SET_RESOLUTION -/

/-- 41_device.md R92, R96, R97: on a DS18B20 or DS1822, in every environment, whatever the presence bit `p`. -/
def Obligations.SetResolutionConfiguresTheSensor : Prop :=
  ∀ (s : State) (n bits : Nat) (sl : Slot) (r : Resolution), s.slots[n]? = some sl →
    sl.type = .ds18b20 ∨ sl.type = .ds1822 → (bits = 9 ∧ r = .r9) ∨ (bits = 10 ∧ r = .r10) ∨ (bits = 11 ∧ r = .r11) ∨
      (bits = 12 ∧ r = .r12) →
    ∃ t p, exec (.setResolution n bits) s = .next t ∧
      t.slots = s.slots.set n { sl with res := r, state := .configured } ∧
      t.status = 0x00 ∧ t.rdata = 0 ∧ t.raux = 0 ∧
      t.trace = matchTrace p sl.addr ++ [.writeByte 0x4E, .writeByte s.params.wsTh, .writeByte s.params.wsTl,
        .writeByte (BitVec.ofNat 8 ((bits - 9) * 32 + 31))] ∧
      t.params = s.params ∧ t.cur = s.cur ∧ t.cmd = s.cmd ∧ t.inputs = s.inputs

/-- 41_device.md R93: the range comes before the family. -/
def Obligations.SetResolutionOutOfRange : Prop :=
  ∀ (s : State) (n bits : Nat) (sl : Slot), s.slots[n]? = some sl → bits < 9 ∨ 12 < bits →
    exec (.setResolution n bits) s = .next { s with status := 0x04, rdata := 0, raux := 0, trace := [] }

/-- 41_device.md R94. -/
def Obligations.SetResolutionOnDs18s20 : Prop :=
  ∀ (s : State) (n bits : Nat) (sl : Slot), s.slots[n]? = some sl → sl.type = .ds18s20 → 9 ≤ bits → bits ≤ 12 →
    exec (.setResolution n bits) s = .next { s with status := 0x00, rdata := 0, raux := 0, trace := [] }

/-- 41_device.md R95. -/
def Obligations.SetResolutionOnUnknown : Prop :=
  ∀ (s : State) (n bits : Nat) (sl : Slot), s.slots[n]? = some sl → sl.type = .unknown → 9 ≤ bits → bits ≤ 12 →
    exec (.setResolution n bits) s = .next { s with status := 0x05, rdata := 0, raux := 0, trace := [] }

/-- 41_device.md R98: GET_RESOLUTION then returns r; on the reference bus scratchpad byte 4 becomes cfg(r), whose bits 6..5 select
r, beside TH and TL in bytes 2 and 3, and no sensor of another address changes. The buses include ones with repeated addresses,
where every sensor of the slot's address takes the write: the model's choice (log 4). -/
def Obligations.SetResolutionRoundTrip : Prop :=
  ∀ (s : State) (n bits : Nat) (sl : Slot), s.slots[n]? = some sl → sl.type = .ds18b20 ∨ sl.type = .ds1822 →
    9 ≤ bits → bits ≤ 12 →
    ∃ t u cfg, exec (.setResolution n bits) s = .next t ∧ exec (.getResolution n) t = .next u ∧ u.status = 0x00 ∧
      u.rdata.toNat = bits ∧ cfg = BitVec.ofNat 8 ((bits - 9) * 32 + 31) ∧ 9 + (BitVec.extractLsb' 5 2 cfg).toNat = bits ∧
      ∀ bus, s.env = .reference bus → ∃ bus', t.env = .reference bus' ∧
        bus'.sensors.map (fun d => (d.addr, d.pad, d.conversions)) = bus.sensors.map fun d =>
          (d.addr, if d.addr = sl.addr then { d.pad with b2 := s.params.wsTh, b3 := s.params.wsTl, b4 := cfg } else d.pad,
            d.conversions)

/-! ## RETRIEVE_DATA -/

/-- 41_device.md R99, R101 to R104, 42_decoder.md R110: in every environment, with whatever scratchpad `sp` and presence bits the
bus gives. -/
def Obligations.RetrieveFollowsTheScratchpadItReads : Prop :=
  ∀ (s : State) (n : Nat) (sl : Slot), s.slots[n]? = some sl → sl.type ≠ .unknown →
    ∃ t sp p q, exec (.retrieveData n) s = .next t ∧ t.trace = retrieveTrace sl p q sp ∧
      t.params = s.params ∧ t.cur = s.cur ∧ t.cmd = s.cmd ∧ t.inputs = s.inputs ∧
      (if scratchpadOk s.params sp then
        match decodedReading s.params sl sp with
        | some v => t.status = 0x00 ∧ t.rdata = BitVec.ofInt 64 v ∧ t.raux = 0 ∧
            t.slots = s.slots.set n { sl with temp := BitVec.ofInt 16 v, tvalid := true, state := .ready }
        | none => t.status = 0x03 ∧ t.rdata = 0 ∧ t.raux = 0 ∧ t.slots = s.slots.set n { sl with state := .ready }
      else t.status = 0x02 ∧ t.rdata = 0 ∧ t.raux = 0 ∧ t.slots = s.slots.set n { sl with state := .ready })

/-- 41_device.md R99, R101, 42_decoder.md R110, on a scratchpad that passes its check and decodes: the whole next state. -/
def Obligations.RetrieveStoresTheDecodedTemperature : Prop :=
  ∀ (s : State) (n : Nat) (sl : Slot) (p q : Bool) (ps bits : List Bool) (sp : Scratchpad) (rest : List Byte) (v : Int),
    s.slots[n]? = some sl → sl.type ≠ .unknown → s.env = .answers (p :: q :: ps) bits (padBytes sp ++ rest) →
    scratchpadOk s.params sp = true → decodedReading s.params sl sp = some v →
    exec (.retrieveData n) s =
      .next { s with
        slots := s.slots.set n { sl with temp := BitVec.ofInt 16 v, tvalid := true, state := .ready },
        status := 0x00, rdata := BitVec.ofInt 64 v, raux := 0, trace := retrieveTrace sl p q sp,
        env := .answers ps bits rest }

/-- 41_device.md R102: the temperature is kept and the slot is READY. -/
def Obligations.RetrieveKeepsTheTemperatureOnABadScratchpad : Prop :=
  ∀ (s : State) (n : Nat) (sl : Slot) (p q : Bool) (ps bits : List Bool) (sp : Scratchpad) (rest : List Byte),
    s.slots[n]? = some sl → sl.type ≠ .unknown → s.env = .answers (p :: q :: ps) bits (padBytes sp ++ rest) →
    scratchpadOk s.params sp = false →
    exec (.retrieveData n) s =
      .next { s with slots := s.slots.set n { sl with state := .ready }, status := 0x02, rdata := 0, raux := 0,
                     trace := retrieveTrace sl p q sp, env := .answers ps bits rest }

/-- 41_device.md R103, 42_decoder.md R116: a DS18S20 whose COUNT_PER_C byte, at the layout's index, is 0. -/
def Obligations.RetrieveKeepsTheTemperatureOnADecodeFailure : Prop :=
  ∀ (s : State) (n : Nat) (sl : Slot) (p q : Bool) (ps bits : List Bool) (sp : Scratchpad) (rest : List Byte),
    s.slots[n]? = some sl → sl.type = .ds18s20 → s.env = .answers (p :: q :: ps) bits (padBytes sp ++ rest) →
    scratchpadOk s.params sp = true → (match s.params.layout with | .vendor67 => sp.b7 | .doc56 => sp.b6) = 0 →
    exec (.retrieveData n) s =
      .next { s with slots := s.slots.set n { sl with state := .ready }, status := 0x03, rdata := 0, raux := 0,
                     trace := retrieveTrace sl p q sp, env := .answers ps bits rest }

/-- 41_device.md R100. -/
def Obligations.RetrieveOnUnknown : Prop :=
  ∀ (s : State) (n : Nat) (sl : Slot), s.slots[n]? = some sl → sl.type = .unknown →
    exec (.retrieveData n) s = .next { s with status := 0x05, rdata := 0, raux := 0, trace := [] }

/-- 41_device.md R96, R102 on the reference bus (20_memory.md R47): no sensor has the slot's address, so nine 0xFF are read and the
default CRC-8 fails. -/
def Obligations.RetrieveFromAMissingSensor : Prop :=
  ∀ (s : State) (n : Nat) (sl : Slot) (bus : RefBus), s.slots[n]? = some sl → sl.type ≠ .unknown →
    s.env = .reference bus → (∀ d ∈ bus.sensors, d.addr ≠ sl.addr) → s.params.crc = .dallasMaxim →
    ∃ t, exec (.retrieveData n) s = .next t ∧ t.status = 0x02 ∧ t.slots = s.slots.set n { sl with state := .ready } ∧
      ∃ p q, t.trace = retrieveTrace sl p q ⟨0xFF, 0xFF, 0xFF, 0xFF, 0xFF, 0xFF, 0xFF, 0xFF, 0xFF⟩

/-! ## Temperature outputs and the decoder -/

/-- 41_device.md R105. -/
def Obligations.GetCelsiusResult : Prop :=
  ∀ (s : State) (n : Nat) (sl : Slot), s.slots[n]? = some sl →
    exec (.getCelsius n) s =
      .next { s with status := 0x00, rdata := sl.temp.signExtend 64, raux := if sl.tvalid then 1 else 0, trace := [] }

/-- 41_device.md R106, 42_decoder.md R119: RDATA, read as a signed number, is exactly 9T + 2560. -/
def Obligations.GetFahrenheitResult : Prop :=
  ∀ (s : State) (n : Nat) (sl : Slot), s.slots[n]? = some sl →
    ∃ x : BitVec 64, x.toInt = 9 * sl.temp.toInt + 2560 ∧
      exec (.getFahrenheit n) s =
        .next { s with status := 0x00, rdata := x, raux := if sl.tvalid then 1 else 0, trace := [] }

/-- 42_decoder.md R119: exact, and in the range it gives. -/
def Obligations.FahrenheitIsExact : Prop :=
  ∀ t : Temp16,
    ((fahrenheit80 t.toInt : ℚ) / 80 = (t.toInt : ℚ) / 16 * (9 / 5) + 32) ∧
    -292352 ≤ fahrenheit80 t.toInt ∧ fahrenheit80 t.toInt ≤ 297463

/-- 42_decoder.md R111: the mask takes the 12-bit signed field down to a multiple of the resolution's step, and bits 15..12 do
not matter. -/
def Obligations.B20DecodeRoundsDownToTheResolution : Prop :=
  ∀ (r : Resolution) (field : BitVec 16),
    decodeB20 r field = (field.extractLsb' 0 12).toInt / 2 ^ (12 - resBits r) * 2 ^ (12 - resBits r) ∧
    -2048 ≤ decodeB20 r field ∧ decodeB20 r field ≤ 2047

/-- 42_decoder.md R113 to R116, 30_encoding.md R61: the formula over the rationals, its floor, its failure and its range. -/
def Obligations.S20DecodeFollowsTheFormula : Prop :=
  ∀ (layout : CountLayout) (field : BitVec 16) (sp : Scratchpad) (cr cpc : Byte),
    (match layout with | .vendor67 => cr = sp.b6 ∧ cpc = sp.b7 | .doc56 => cr = sp.b5 ∧ cpc = sp.b6) →
    (cpc = 0 → decodeS20 layout field sp = none) ∧
    (cpc ≠ 0 → ∃ v : Int, decodeS20 layout field sp = some v ∧ -6116 ≤ v ∧ v ≤ 2044 ∧
      v = ⌊16 * ((⌊((field.extractLsb' 0 9).toInt : ℚ) / 2⌋ : ℚ) - 1 / 4 +
        ((cpc.toNat : ℚ) - (cr.toNat : ℚ)) / (cpc.toNat : ℚ))⌋)

/-- 42_decoder.md R107: the default CRC-8 of zero bytes is 0, and a message followed by its CRC-8 has CRC-8 0. -/
def Obligations.CrcOfZerosAndResidue : Prop :=
  (∀ n : Nat, dallasCrc8 (List.replicate n 0x00) = 0x00) ∧
  ∀ bytes : List Byte, dallasCrc8 (bytes ++ [dallasCrc8 bytes]) = 0x00

/-- 42_decoder.md R107, its check values. -/
def Obligations.CrcCheckValues : Prop :=
  dallasCrc8 [0x02, 0x1C, 0xB8, 0x01, 0x00, 0x00, 0x00] = 0xA2 ∧
  dallasCrc8 [0x50, 0x05, 0x4B, 0x46, 0x7F, 0xFF, 0x0C, 0x10] = 0x1C ∧
  dallasCrc8 (List.replicate 8 0xFF) = 0xC9

/-- 42_decoder.md R108. -/
def Obligations.ClassifyFollowsTheFamilyCode : Prop :=
  ∀ f : Byte, (f = 0x10 → classify f = .ds18s20) ∧ (f = 0x28 → classify f = .ds18b20) ∧ (f = 0x22 → classify f = .ds1822) ∧
    (f ≠ 0x10 → f ≠ 0x28 → f ≠ 0x22 → classify f = .unknown)

/-- 30_encoding.md R60: which addresses are valid; 42_decoder.md R109: which scratchpads pass; both for every CRC-8. And the two
silent buses under the default one. -/
def Obligations.ScratchpadCheckRejectsSilentBuses : Prop :=
  (∀ (p : Params) (a : Addr),
    addrValid p a = true ↔
      crc8 p [a.extractLsb' 0 8, a.extractLsb' 8 8, a.extractLsb' 16 8, a.extractLsb' 24 8, a.extractLsb' 32 8,
        a.extractLsb' 40 8, a.extractLsb' 48 8] = a.extractLsb' 56 8) ∧
  (∀ (p : Params) (sp : Scratchpad),
    scratchpadOk p sp = true ↔
      crc8 p [sp.b0, sp.b1, sp.b2, sp.b3, sp.b4, sp.b5, sp.b6, sp.b7] = sp.b8 ∧ sp ≠ ⟨0, 0, 0, 0, 0, 0, 0, 0, 0⟩) ∧
  ∀ p : Params, p.crc = .dallasMaxim →
    scratchpadOk p ⟨0xFF, 0xFF, 0xFF, 0xFF, 0xFF, 0xFF, 0xFF, 0xFF, 0xFF⟩ = false

/-! ## The whole machine -/

/-- 10_state.md R24: which commands change which fields of an occupied slot, and which change TBL.COUNT; CLEAR_TABLE
frees all slots. -/
def Obligations.SlotFieldsChangeOnlyByTheirCommands : Prop :=
  ∀ (i : Instr) (s t : State), exec i s = .next t →
    (∀ (n : Nat) (a b : Slot), s.slots[n]? = some a → t.slots[n]? = some b →
      b.addr = a.addr ∧ b.type = a.type ∧
      (b.res ≠ a.res → ∃ bits, i = .setResolution n bits) ∧
      (b.temp ≠ a.temp ∨ b.tvalid ≠ a.tvalid → i = .retrieveData n) ∧
      (b.state ≠ a.state → (∃ bits, i = .setResolution n bits) ∨ i = .retrieveData n)) ∧
    (t.tblCount = s.tblCount ∨ (i = .search ∧ t.tblCount = s.tblCount + 1) ∨ (i = .clearTable ∧ t.tblCount = 0)) ∧
    (i = .clearTable → t.tblCount = 0)

/-- 60_exceptions.md R123: which status each command ends with, and RDATA = RAUX = 0 on every status other than OK. -/
def Obligations.StatusesAndZeroResultsOnFailure : Prop :=
  ∀ (i : Instr) (s t : State), exec i s = .next t →
    t.status.toNat ∈ statusesOf i ∧ (t.status ≠ 0x00 → t.rdata = 0 ∧ t.raux = 0)

/-- No command changes the parameters (00_scope.md R10). That CMD keeps its word after a command is the model's reading (log 18), and
so is the list of inputs, which no command changes (log 1). -/
def Obligations.CommandsLeaveParametersCmdAndInputs : Prop :=
  ∀ (i : Instr) (s t : State), exec i s = .next t → t.params = s.params ∧ t.cmd = s.cmd ∧ t.inputs = s.inputs
end

