-- ==== Sys2Proof/Laws/State.lean ====
section
/-! SUPPORT. One lemma per field per update of the state, so that no proof unfolds a record update. -/

namespace Sys2Proof.Machine

@[simp] theorem beginCommand_params (s : State) : (beginCommand s).params = s.params := rfl
@[simp] theorem beginCommand_cur (s : State) : (beginCommand s).cur = s.cur := rfl
@[simp] theorem beginCommand_slots (s : State) : (beginCommand s).slots = s.slots := rfl
@[simp] theorem beginCommand_cmd (s : State) : (beginCommand s).cmd = s.cmd := rfl
@[simp] theorem beginCommand_status (s : State) : (beginCommand s).status = s.status := rfl
@[simp] theorem beginCommand_rdata (s : State) : (beginCommand s).rdata = s.rdata := rfl
@[simp] theorem beginCommand_raux (s : State) : (beginCommand s).raux = s.raux := rfl
@[simp] theorem beginCommand_trace (s : State) : (beginCommand s).trace = [] := rfl
@[simp] theorem beginCommand_inputs (s : State) : (beginCommand s).inputs = s.inputs := rfl
@[simp] theorem beginCommand_env (s : State) : (beginCommand s).env = s.env := rfl
@[simp] theorem beginCommand_draws (s : State) : (beginCommand s).draws = s.draws := rfl

@[simp] theorem finish_params (c : Status) (d : BitVec 64) (x : BitVec 32) (s : State) : (finish c d x s).params = s.params := rfl
@[simp] theorem finish_cur (c : Status) (d : BitVec 64) (x : BitVec 32) (s : State) : (finish c d x s).cur = s.cur := rfl
@[simp] theorem finish_slots (c : Status) (d : BitVec 64) (x : BitVec 32) (s : State) : (finish c d x s).slots = s.slots := rfl
@[simp] theorem finish_cmd (c : Status) (d : BitVec 64) (x : BitVec 32) (s : State) : (finish c d x s).cmd = s.cmd := rfl
@[simp] theorem finish_status (c : Status) (d : BitVec 64) (x : BitVec 32) (s : State) : (finish c d x s).status = statusCode c := rfl
@[simp] theorem finish_rdata (c : Status) (d : BitVec 64) (x : BitVec 32) (s : State) : (finish c d x s).rdata = d := rfl
@[simp] theorem finish_raux (c : Status) (d : BitVec 64) (x : BitVec 32) (s : State) : (finish c d x s).raux = x := rfl
@[simp] theorem finish_trace (c : Status) (d : BitVec 64) (x : BitVec 32) (s : State) : (finish c d x s).trace = s.trace := rfl
@[simp] theorem finish_inputs (c : Status) (d : BitVec 64) (x : BitVec 32) (s : State) : (finish c d x s).inputs = s.inputs := rfl
@[simp] theorem finish_env (c : Status) (d : BitVec 64) (x : BitVec 32) (s : State) : (finish c d x s).env = s.env := rfl
@[simp] theorem finish_draws (c : Status) (d : BitVec 64) (x : BitVec 32) (s : State) : (finish c d x s).draws = s.draws := rfl

@[simp] theorem raise_params (c : Status) (s : State) : (raise c s).params = s.params := rfl
@[simp] theorem raise_cur (c : Status) (s : State) : (raise c s).cur = s.cur := rfl
@[simp] theorem raise_slots (c : Status) (s : State) : (raise c s).slots = s.slots := rfl
@[simp] theorem raise_cmd (c : Status) (s : State) : (raise c s).cmd = s.cmd := rfl
@[simp] theorem raise_status (c : Status) (s : State) : (raise c s).status = statusCode c := rfl
@[simp] theorem raise_rdata (c : Status) (s : State) : (raise c s).rdata = 0 := rfl
@[simp] theorem raise_raux (c : Status) (s : State) : (raise c s).raux = 0 := rfl
@[simp] theorem raise_trace (c : Status) (s : State) : (raise c s).trace = s.trace := rfl
@[simp] theorem raise_inputs (c : Status) (s : State) : (raise c s).inputs = s.inputs := rfl
@[simp] theorem raise_env (c : Status) (s : State) : (raise c s).env = s.env := rfl
@[simp] theorem raise_draws (c : Status) (s : State) : (raise c s).draws = s.draws := rfl

@[simp] theorem emit_params (e : BusEvent) (s : State) : (emit e s).params = s.params := rfl
@[simp] theorem emit_cur (e : BusEvent) (s : State) : (emit e s).cur = s.cur := rfl
@[simp] theorem emit_slots (e : BusEvent) (s : State) : (emit e s).slots = s.slots := rfl
@[simp] theorem emit_cmd (e : BusEvent) (s : State) : (emit e s).cmd = s.cmd := rfl
@[simp] theorem emit_status (e : BusEvent) (s : State) : (emit e s).status = s.status := rfl
@[simp] theorem emit_rdata (e : BusEvent) (s : State) : (emit e s).rdata = s.rdata := rfl
@[simp] theorem emit_raux (e : BusEvent) (s : State) : (emit e s).raux = s.raux := rfl
@[simp] theorem emit_trace (e : BusEvent) (s : State) : (emit e s).trace = s.trace ++ [e] := rfl
@[simp] theorem emit_inputs (e : BusEvent) (s : State) : (emit e s).inputs = s.inputs := rfl
@[simp] theorem emit_env (e : BusEvent) (s : State) : (emit e s).env = s.env := rfl
@[simp] theorem emit_draws (e : BusEvent) (s : State) : (emit e s).draws = s.draws := rfl

@[simp] theorem setEnv_params (e : Env) (k : Nat) (s : State) : (setEnv e k s).params = s.params := rfl
@[simp] theorem setEnv_cur (e : Env) (k : Nat) (s : State) : (setEnv e k s).cur = s.cur := rfl
@[simp] theorem setEnv_slots (e : Env) (k : Nat) (s : State) : (setEnv e k s).slots = s.slots := rfl
@[simp] theorem setEnv_cmd (e : Env) (k : Nat) (s : State) : (setEnv e k s).cmd = s.cmd := rfl
@[simp] theorem setEnv_status (e : Env) (k : Nat) (s : State) : (setEnv e k s).status = s.status := rfl
@[simp] theorem setEnv_rdata (e : Env) (k : Nat) (s : State) : (setEnv e k s).rdata = s.rdata := rfl
@[simp] theorem setEnv_raux (e : Env) (k : Nat) (s : State) : (setEnv e k s).raux = s.raux := rfl
@[simp] theorem setEnv_trace (e : Env) (k : Nat) (s : State) : (setEnv e k s).trace = s.trace := rfl
@[simp] theorem setEnv_inputs (e : Env) (k : Nat) (s : State) : (setEnv e k s).inputs = s.inputs := rfl
@[simp] theorem setEnv_env (e : Env) (k : Nat) (s : State) : (setEnv e k s).env = e := rfl
@[simp] theorem setEnv_draws (e : Env) (k : Nat) (s : State) : (setEnv e k s).draws = k := rfl

@[simp] theorem updateSlot_params (n : Nat) (f : Slot → Slot) (s : State) : (updateSlot n f s).params = s.params := rfl
@[simp] theorem updateSlot_cur (n : Nat) (f : Slot → Slot) (s : State) : (updateSlot n f s).cur = s.cur := rfl
@[simp] theorem updateSlot_slots (n : Nat) (f : Slot → Slot) (s : State) : (updateSlot n f s).slots = s.slots.modify n f := rfl
@[simp] theorem updateSlot_cmd (n : Nat) (f : Slot → Slot) (s : State) : (updateSlot n f s).cmd = s.cmd := rfl
@[simp] theorem updateSlot_status (n : Nat) (f : Slot → Slot) (s : State) : (updateSlot n f s).status = s.status := rfl
@[simp] theorem updateSlot_rdata (n : Nat) (f : Slot → Slot) (s : State) : (updateSlot n f s).rdata = s.rdata := rfl
@[simp] theorem updateSlot_raux (n : Nat) (f : Slot → Slot) (s : State) : (updateSlot n f s).raux = s.raux := rfl
@[simp] theorem updateSlot_trace (n : Nat) (f : Slot → Slot) (s : State) : (updateSlot n f s).trace = s.trace := rfl
@[simp] theorem updateSlot_inputs (n : Nat) (f : Slot → Slot) (s : State) : (updateSlot n f s).inputs = s.inputs := rfl
@[simp] theorem updateSlot_env (n : Nat) (f : Slot → Slot) (s : State) : (updateSlot n f s).env = s.env := rfl
@[simp] theorem updateSlot_draws (n : Nat) (f : Slot → Slot) (s : State) : (updateSlot n f s).draws = s.draws := rfl

/-- TBL.COUNT and MAX_NUM_DEVICES read only `slots` and `params`. -/
theorem tblCount_eq (s : State) : s.tblCount = s.slots.length := rfl

theorem maxNumDevices_eq (s : State) : s.maxNumDevices = s.params.lastSlot.val + 1 := rfl

/-- MAX_NUM_DEVICES is 1..256 in every instance (00_scope.md R10). -/
theorem maxNumDevices_range (s : State) : 1 ≤ s.maxNumDevices ∧ s.maxNumDevices ≤ 256 := by
  have := s.params.lastSlot.isLt
  simp only [maxNumDevices_eq]
  omega

/-- An update of slot n leaves the count alone. -/
@[simp] theorem updateSlot_tblCount (n : Nat) (f : Slot → Slot) (s : State) : (updateSlot n f s).tblCount = s.tblCount := by
  simp [State.tblCount]

/-- Slot n after an update of slot n. -/
theorem updateSlot_same (n : Nat) (f : Slot → Slot) (s : State) : (updateSlot n f s).slots[n]? = s.slots[n]?.map f := by
  simp

/-- Another slot after an update of slot n. -/
theorem updateSlot_other {m n : Nat} (h : m ≠ n) (f : Slot → Slot) (s : State) : (updateSlot n f s).slots[m]? = s.slots[m]? := by
  simp [Ne.symm h]

/-- `check_slot` on an occupied slot (60_exceptions.md R122). -/
theorem checkSlot_occupied {n : Nat} {s : State} {sl : Slot} (h : s.slots[n]? = some sl) (k : Slot → State → State) :
    checkSlot n s k = k sl s := by
  simp [checkSlot, h]

/-- `check_slot` on a free slot (60_exceptions.md R122). -/
theorem checkSlot_free {n : Nat} {s : State} (h : s.tblCount ≤ n) (k : Slot → State → State) :
    checkSlot n s k = raise .badSlot s := by
  simp [checkSlot, List.getElem?_eq_none (show s.slots.length ≤ n from h)]

end Sys2Proof.Machine
end

