-- ==== Sys2Proof/Laws/Bus.lean ====
section
/-! SUPPORT. What the bus operations do: they leave the block's registers alone, add to the trace exactly the calls they make
(20_memory.md R40), and take prepared answers in order. -/

namespace Sys2Proof.Machine

/-- The block's registers, the slots, the parameters and the inputs to come are the same in both states. -/
structure SameBlock (s t : State) : Prop where
  params : t.params = s.params
  cur : t.cur = s.cur
  slots : t.slots = s.slots
  cmd : t.cmd = s.cmd
  status : t.status = s.status
  rdata : t.rdata = s.rdata
  raux : t.raux = s.raux
  inputs : t.inputs = s.inputs

theorem SameBlock.refl (s : State) : SameBlock s s := ⟨rfl, rfl, rfl, rfl, rfl, rfl, rfl, rfl⟩

theorem SameBlock.trans {s t u : State} (h : SameBlock s t) (g : SameBlock t u) : SameBlock s u :=
  ⟨g.params.trans h.params, g.cur.trans h.cur, g.slots.trans h.slots, g.cmd.trans h.cmd, g.status.trans h.status,
    g.rdata.trans h.rdata, g.raux.trans h.raux, g.inputs.trans h.inputs⟩

theorem busReset_sameBlock (s : State) : SameBlock s (busReset s).2 := ⟨rfl, rfl, rfl, rfl, rfl, rfl, rfl, rfl⟩
theorem busReadBit_sameBlock (s : State) : SameBlock s (busReadBit s).2 := ⟨rfl, rfl, rfl, rfl, rfl, rfl, rfl, rfl⟩
theorem busWriteBit_sameBlock (b : Bool) (s : State) : SameBlock s (busWriteBit b s) :=
  ⟨rfl, rfl, rfl, rfl, rfl, rfl, rfl, rfl⟩
theorem busWriteByte_sameBlock (b : Byte) (s : State) : SameBlock s (busWriteByte b s) :=
  ⟨rfl, rfl, rfl, rfl, rfl, rfl, rfl, rfl⟩
theorem busReadByte_sameBlock (s : State) : SameBlock s (busReadByte s).2 := ⟨rfl, rfl, rfl, rfl, rfl, rfl, rfl, rfl⟩
theorem busDelay_sameBlock (ms : Nat) (s : State) : SameBlock s (busDelay ms s) := ⟨rfl, rfl, rfl, rfl, rfl, rfl, rfl, rfl⟩

@[simp] theorem busReset_trace (s : State) : (busReset s).2.trace = s.trace ++ [.reset (busReset s).1] := rfl
@[simp] theorem busReadBit_trace (s : State) : (busReadBit s).2.trace = s.trace ++ [.readBit (busReadBit s).1] := rfl
@[simp] theorem busWriteBit_trace (b : Bool) (s : State) : (busWriteBit b s).trace = s.trace ++ [.writeBit b] := rfl
@[simp] theorem busWriteByte_trace (b : Byte) (s : State) : (busWriteByte b s).trace = s.trace ++ [.writeByte b] := rfl
@[simp] theorem busReadByte_trace (s : State) : (busReadByte s).2.trace = s.trace ++ [.readByte (busReadByte s).1] := rfl
@[simp] theorem busDelay_trace (ms : Nat) (s : State) : (busDelay ms s).trace = s.trace ++ [.delay ms] := rfl

/-- BusReset with a prepared answer. -/
theorem busReset_answers {s : State} {p : Bool} {ps bits : List Bool} {bytes : List Byte}
    (h : s.env = .answers (p :: ps) bits bytes) :
    busReset s = (p, { s with env := .answers ps bits bytes, trace := s.trace ++ [.reset p] }) := by
  simp [busReset, h, drawPresence, emit, setEnv]

/-- BusReadBit with a prepared answer. -/
theorem busReadBit_answers {s : State} {b : Bool} {ps bits : List Bool} {bytes : List Byte}
    (h : s.env = .answers ps (b :: bits) bytes) :
    busReadBit s = (b, { s with env := .answers ps bits bytes, trace := s.trace ++ [.readBit b] }) := by
  simp [busReadBit, h, drawBit, emit, setEnv]

/-- BusReadByte with a prepared answer. -/
theorem busReadByte_answers {s : State} {b : Byte} {ps bits : List Bool} {bytes : List Byte}
    (h : s.env = .answers ps bits (b :: bytes)) :
    busReadByte s = (b, { s with env := .answers ps bits bytes, trace := s.trace ++ [.readByte b] }) := by
  simp [busReadByte, h, drawByte, emit, setEnv]

/-- Prepared answers take no notice of a written bit. -/
theorem busWriteBit_answers {s : State} {ps bits : List Bool} {bytes : List Byte} (h : s.env = .answers ps bits bytes) (b : Bool) :
    busWriteBit b s = { s with trace := s.trace ++ [.writeBit b] } := by
  cases s; simp_all [busWriteBit, sendBit, emit, setEnv]

/-- Prepared answers take no notice of a written byte. -/
theorem busWriteByte_answers {s : State} {ps bits : List Bool} {bytes : List Byte} (h : s.env = .answers ps bits bytes)
    (b : Byte) : busWriteByte b s = { s with trace := s.trace ++ [.writeByte b] } := by
  cases s; simp_all [busWriteByte, sendByte, emit, setEnv]

theorem busWriteBytes_sameBlock (bs : List Byte) (s : State) : SameBlock s (busWriteBytes bs s) := by
  induction bs generalizing s with
  | nil => exact .refl s
  | cons b rest ih => exact (busWriteByte_sameBlock b s).trans (ih _)

/-- Bytes are sent in ascending index (20_memory.md R35). -/
@[simp] theorem busWriteBytes_trace (bs : List Byte) (s : State) :
    (busWriteBytes bs s).trace = s.trace ++ bs.map .writeByte := by
  induction bs generalizing s with
  | nil => simp [busWriteBytes]
  | cons b rest ih => simp [busWriteBytes, ih]

/-- Prepared answers take no notice of written bytes. -/
theorem busWriteBytes_answers (bs : List Byte) {s : State} {ps bits : List Bool} {bytes : List Byte}
    (h : s.env = .answers ps bits bytes) :
    busWriteBytes bs s = { s with trace := s.trace ++ bs.map .writeByte } := by
  induction bs generalizing s with
  | nil => simp [busWriteBytes]
  | cons b rest ih =>
    rw [busWriteBytes, busWriteByte_answers h, ih (by exact h)]
    simp

theorem matchRom_sameBlock (a : Addr) (s : State) : SameBlock s (matchRom a s) :=
  (busReset_sameBlock s).trans ((busWriteByte_sameBlock _ _).trans (busWriteBytes_sameBlock _ _))

/-- The calls of the start of a transaction (41_device.md R92, R99). -/
@[simp] theorem matchRom_trace (a : Addr) (s : State) :
    (matchRom a s).trace = s.trace ++ .reset (busReset s).1 :: .writeByte cmdMatchRom :: (addrBytes a).map .writeByte := by
  simp [matchRom]

theorem readScratchpad_sameBlock (s : State) : SameBlock s (readScratchpad s).2 := by
  have h := busReadByte_sameBlock
  exact (h _).trans ((h _).trans ((h _).trans ((h _).trans ((h _).trans ((h _).trans ((h _).trans ((h _).trans (h _))))))))

/-- The calls of Read Scratchpad: byte 0 first (20_memory.md R35). -/
@[simp] theorem readScratchpad_trace (s : State) :
    (readScratchpad s).2.trace = s.trace ++ (padBytes (readScratchpad s).1).map .readByte := by
  simp [readScratchpad, padBytes]

/-- Read Scratchpad with prepared answers. -/
theorem readScratchpad_answers {s : State} {ps bits : List Bool} {sp : Scratchpad} {rest : List Byte}
    (h : s.env = .answers ps bits (padBytes sp ++ rest)) :
    readScratchpad s =
      (sp, { s with env := .answers ps bits rest, trace := s.trace ++ (padBytes sp).map .readByte }) := by
  simp only [padBytes, List.cons_append, List.nil_append] at h
  unfold readScratchpad
  rw [busReadByte_answers h]
  simp only
  iterate 8 rw [busReadByte_answers (s := State.mk _ _ _ _ _ _ _ _ _ _ _) rfl]; simp only
  simp [padBytes]

theorem writeConfig_sameBlock (a : Addr) (r : Resolution) (s : State) :
    SameBlock s (busWriteBytes [cmdWriteScratchpad, s.params.wsTh, s.params.wsTl, configByte r] (matchRom a s)) :=
  (matchRom_sameBlock a s).trans (busWriteBytes_sameBlock _ _)

end Sys2Proof.Machine
end

