-- ==== Sys2Proof/Laws/Device.lean ====
section
/-! SUPPORT. All that a per-device command can do, SET_RESOLUTION and RETRIEVE_DATA among them (41_device.md). -/

namespace Sys2Proof.Machine

/-- A per-device command ends BAD_SLOT, or goes on with an occupied slot (60_exceptions.md R122). -/
theorem checkSlot_cases {n : Nat} {s t : State} {k : Slot → State → State}
    (h : (.next (checkSlot n (beginCommand s) k) : Host.Outcome State Fault Refusal) = .next t) :
    t = raise .badSlot (beginCommand s) ∨ ∃ sl, s.slots[n]? = some sl ∧ t = k sl (beginCommand s) := by
  injection h with h
  unfold checkSlot at h
  split at h
  · exact .inl h.symm
  · next sl hs => exact .inr ⟨sl, hs, h.symm⟩

/-- All that SET_RESOLUTION can do (41_device.md R92 to R95): no bus call and a status, or the configuration of a DS18B20 or
DS1822. -/
theorem execSetResolution_cases {n bits : Nat} {s t : State} (h : execSetResolution n bits s = .next t) :
    (∃ c, c ∈ [Status.badSlot, .invalidResolution, .unsupportedFamily, .ok] ∧ t = raise c (beginCommand s)) ∨
    ∃ sl r, s.slots[n]? = some sl ∧ resolutionOf bits = some r ∧ (sl.type = .ds18b20 ∨ sl.type = .ds1822) ∧
      t = finish .ok 0 0 (updateSlot n (fun x => { x with res := r, state := .configured })
        (writeConfig sl.addr r (beginCommand s))) := by
  rcases checkSlot_cases h with h | ⟨sl, hs, h⟩
  · exact .inl ⟨_, by simp, h⟩
  · split at h
    · exact .inl ⟨_, by simp, h⟩
    · next r hr =>
      unfold setResolutionOn at h
      split at h
      · exact .inl ⟨_, by simp, h⟩
      · exact .inl ⟨.ok, by simp, h⟩
      · next ht => exact .inr ⟨sl, r, hs, hr, .inl ht, h⟩
      · next ht => exact .inr ⟨sl, r, hs, hr, .inr ht, h⟩

/-- All that RETRIEVE_DATA can do before the bus (41_device.md R99, R100). -/
theorem execRetrieveData_cases {n : Nat} {s t : State} (h : execRetrieveData n s = .next t) :
    (∃ c, c ∈ [Status.badSlot, .unsupportedFamily] ∧ t = raise c (beginCommand s)) ∨
    ∃ sl, s.slots[n]? = some sl ∧ sl.type ≠ .unknown ∧ t = retrieveOn n sl (beginCommand s) := by
  rcases checkSlot_cases h with h | ⟨sl, hs, h⟩
  · exact .inl ⟨_, by simp, h⟩
  · split at h
    · exact .inl ⟨_, by simp, h⟩
    all_goals
      next ht => exact .inr ⟨sl, hs, by simp [ht], h⟩

/-- RETRIEVE_DATA on a slot of a known type goes to the bus (41_device.md R99). -/
theorem execRetrieveData_known {n : Nat} {s : State} {sl : Slot} (hs : s.slots[n]? = some sl) (ht : sl.type ≠ .unknown) :
    execRetrieveData n s = .next (retrieveOn n sl (beginCommand s)) := by
  simp only [execRetrieveData, checkSlot_occupied (s := beginCommand s) hs]
  split
  · next h => exact absurd h ht
  all_goals rfl

/-- The bus calls of RETRIEVE_DATA leave the block alone. -/
theorem convertAndRead_sameBlock (sl : Slot) (s : State) : SameBlock s (convertAndRead sl s).2 :=
  (matchRom_sameBlock _ _).trans ((busWriteByte_sameBlock _ _).trans ((busDelay_sameBlock _ _).trans
    ((matchRom_sameBlock _ _).trans ((busWriteByte_sameBlock _ _).trans (readScratchpad_sameBlock _)))))

/-- Two updates of one slot are one. -/
theorem modify_modify (l : List Slot) (n : Nat) (f g : Slot → Slot) : (l.modify n f).modify n g = l.modify n (g ∘ f) := by
  apply List.ext_getElem?
  intro i
  simp only [List.getElem?_modify]
  split <;> simp [Function.comp_def]

/-- RETRIEVE_DATA after its bus calls (41_device.md R99, R104): the slot is READY, and nothing else of the block has changed. -/
theorem retrieveOn_eq (n : Nat) (sl : Slot) (s : State) :
    ∃ sp u, retrieveOn n sl s = storeReading n sl sp u ∧
      u.slots = s.slots.modify n (fun x => { x with state := .ready }) ∧ u.params = s.params ∧ u.cur = s.cur ∧ u.cmd = s.cmd ∧
      u.inputs = s.inputs ∧ (sp, u.trace) =
        ((convertAndRead sl (updateSlot n (fun x => { x with state := .converting }) s)).1,
          (convertAndRead sl (updateSlot n (fun x => { x with state := .converting }) s)).2.trace) := by
  have h := convertAndRead_sameBlock sl (updateSlot n (fun x => { x with state := .converting }) s)
  refine ⟨_, _, rfl, ?_, h.params, h.cur, h.cmd, h.inputs, rfl⟩
  simp [h.slots, modify_modify, Function.comp_def]

/-- All that RETRIEVE_DATA can do with a scratchpad (41_device.md R99, R102, R103). -/
theorem storeReading_cases (n : Nat) (sl : Slot) (sp : Scratchpad) (u : State) :
    (scratchpadOk u.params sp = false ∧ storeReading n sl sp u = raise .scratchpadInvalid u) ∨
    (scratchpadOk u.params sp = true ∧ decodeTemp u.params sl.type sl.res sp = none ∧
      storeReading n sl sp u = raise .decodeFailure u) ∨
    ∃ v, scratchpadOk u.params sp = true ∧ decodeTemp u.params sl.type sl.res sp = some v ∧
      storeReading n sl sp u =
        finish .ok (sext64 v) 0 (updateSlot n (fun x => { x with temp := BitVec.ofInt 16 v, tvalid := true }) u) := by
  unfold storeReading
  split
  · next hp =>
    split
    · next hd => exact .inr (.inl ⟨hp, hd, rfl⟩)
    · next v hd => exact .inr (.inr ⟨v, hp, hd, rfl⟩)
  · next hp => exact .inl ⟨by simpa using hp, rfl⟩

/-- The waits of the machine are the ones R101 lists. -/
theorem tconv_eq (r : Resolution) : tconv r = conversionWait r := by cases r <;> rfl

/-- The raw field of the machine has byte 1 above byte 0 (20_memory.md R36). -/
theorem rawField_eq (sp : Scratchpad) : rawField sp = BitVec.ofNat 16 (sp.b1.toNat * 256 + sp.b0.toNat) := by
  apply BitVec.eq_of_toNat_eq
  have h0 := sp.b0.isLt
  have h1 := sp.b1.isLt
  rw [rawField, BitVec.toNat_append, ← Nat.shiftLeft_add_eq_or_of_lt h0, Nat.shiftLeft_eq, BitVec.toNat_ofNat]
  omega

/-- The decode of the machine is the one R110 gives. -/
theorem decodeTemp_eq (p : Params) (sl : Slot) (sp : Scratchpad) :
    decodeTemp p sl.type sl.res sp = decodedReading p sl sp := by
  cases ht : sl.type <;> simp [decodeTemp, decodedReading, ht, rawField_eq]

end Sys2Proof.Machine
end

