-- ==== Sys2Proof/Laws/Search.lean ====
section
/-! SUPPORT. What the bit steps of SEARCH do (40_enumeration.md R68, R73), and the 64 bits of an address. -/

namespace Sys2Proof.Machine

/-- Bit j after a write of bit i (00_scope.md R13). -/
theorem addrBit_setAddrBit (a : Addr) {i j : Nat} (hi : i < 64) (b : Bool) :
    addrBit (setAddrBit a i b) j = if j = i then b else addrBit a j := by
  by_cases hji : j = i
  · subst hji
    cases b <;> simp [setAddrBit, addrBit, hi]
  · by_cases hj : j < 64
    · cases b <;> simp [setAddrBit, addrBit, hj, hji]
    · cases b <;> simp [setAddrBit, addrBit, BitVec.getLsbD_of_ge _ _ (Nat.le_of_not_lt hj), hji]

/-- `A.bit[i]` is `A.byte[i div 8][i mod 8]` (20_memory.md R34). -/
theorem addrBit_eq_byte (a : Addr) (i : Nat) : addrBit a i = (addrByte a (i / 8)).getLsbD (i % 8) := by
  have h : i % 8 < 8 := Nat.mod_lt _ (by decide)
  simp [addrBit, addrByte, h, Nat.div_add_mod]

/-- The chosen direction is the one R73 lists case by case. -/
theorem chooseDir_eq_direction (c : Cursor) (b cb : Bool) (i : Nat) (h : ¬(b = true ∧ cb = true)) :
    chooseDir c b cb i = direction c.la c.ld.toInt b cb i := by
  cases b <;> cases cb <;> simp_all [chooseDir, direction, addrBit]

/-- The bit steps leave the block's registers alone: the search keeps SEQ.WORK and SEQ.LZ apart (10_state.md R21). -/
theorem searchBits_sameBlock (n i : Nat) (q : SearchSeq) (s : State) : SameBlock s (searchBits n i q s).2 := by
  induction n generalizing i q s with
  | zero => exact .refl s
  | succ n ih =>
    have h := (busReadBit_sameBlock s).trans (busReadBit_sameBlock (busReadBit s).2)
    unfold searchBits
    simp only
    split
    · exact h
    · exact (h.trans (busWriteBit_sameBlock _ _)).trans (ih _ _ _)

/-- One bit step that goes on (40_enumeration.md R68). -/
theorem searchBits_succ {n i : Nat} {q : SearchSeq} {s : State}
    (h : ((busReadBit s).1 && (busReadBit (busReadBit s).2).1) = false) :
    searchBits (n + 1) i q s =
      searchBits n (i + 1)
        (q.take i (busReadBit s).1 (busReadBit (busReadBit s).2).1
          (chooseDir s.cur (busReadBit s).1 (busReadBit (busReadBit s).2).1 i))
        (busWriteBit (chooseDir s.cur (busReadBit s).1 (busReadBit (busReadBit s).2).1 i) (busReadBit (busReadBit s).2).2) := by
  rw [searchBits]
  simp [h]

/-- One bit step that meets (1, 1) (40_enumeration.md R74). -/
theorem searchBits_noResponse {n i : Nat} {q : SearchSeq} {s : State}
    (h : ((busReadBit s).1 && (busReadBit (busReadBit s).2).1) = true) :
    searchBits (n + 1) i q s = (none, (busReadBit (busReadBit s).2).2) := by
  rw [searchBits]
  simp [h]

/-- One bit step with prepared answers other than (1, 1). -/
theorem searchBits_answers {n i : Nat} {q : SearchSeq} {s : State} {b cb : Bool} {ps bits : List Bool} {bytes : List Byte}
    (he : s.env = .answers ps (b :: cb :: bits) bytes) (h : (b && cb) = false) :
    searchBits (n + 1) i q s =
      searchBits n (i + 1) (q.take i b cb (chooseDir s.cur b cb i))
        { s with env := .answers ps bits bytes,
                 trace := s.trace ++ [.readBit b, .readBit cb, .writeBit (chooseDir s.cur b cb i)] } := by
  have h1 := busReadBit_answers he
  have h2 := busReadBit_answers (s := (busReadBit s).2) (b := cb) (ps := ps) (bits := bits) (bytes := bytes) (by rw [h1])
  rw [searchBits_succ (by rw [h2, h1]; exact h), h2, h1]
  simp only
  rw [busWriteBit_answers (by rfl)]
  simp

/-- The start of SEARCH with a prepared presence pulse (40_enumeration.md R71, R72). -/
theorem searchBus_answers {s : State} {ps bits : List Bool} {bytes : List Byte} (he : s.env = .answers (true :: ps) bits bytes) :
    searchBus s = searchEnd (searchBits 64 0 ⟨0, 0xFF⟩
      { s with env := .answers ps bits bytes, trace := s.trace ++ [.reset true, .writeByte 0xF0] }) := by
  unfold searchBus
  rw [busReset_answers he]
  simp only [if_true]
  rw [busWriteByte_answers rfl]
  simp [cmdSearchRom]

/-- SEARCH when it reaches the bus (40_enumeration.md R69, R70). -/
theorem execSearch_bus {s : State} (hd : s.cur.done = false) (hc : s.tblCount ≠ s.maxNumDevices) :
    execSearch s = .next (searchBus (beginCommand s)) := by
  simp [execSearch, hd, hc]

/-- −1, the branch position that means none, is the byte 0xFF (10_state.md R19). -/
theorem branchPos_none (lz : BitVec 8) : lz = 0xFF ↔ lz.toInt = -1 := by
  revert lz
  decide

/-- A bit index as a branch position (10_state.md R19). -/
theorem branchPos_toInt {i : Nat} (h : i < 64) : (BitVec.ofNat 8 i).toInt = i := by
  interval_cases i <;> decide

/-- SEQ.LZ stays in −1..63 (10_state.md R21). -/
theorem searchBits_lz {n i : Nat} {q q' : SearchSeq} {s : State} (h : i + n ≤ 64) (hq : -1 ≤ q.lz.toInt ∧ q.lz.toInt ≤ 63)
    (hr : (searchBits n i q s).1 = some q') : -1 ≤ q'.lz.toInt ∧ q'.lz.toInt ≤ 63 := by
  induction n generalizing i q s with
  | zero => cases hr; exact hq
  | succ n ih =>
    unfold searchBits at hr
    simp only at hr
    split at hr
    · cases hr
    · refine ih (by omega) ?_ hr
      simp only [SearchSeq.take]
      split
      · rw [branchPos_toInt (by omega)]; omega
      · exact hq

/-- All that SEARCH can do once it is on the bus: a failure, or a device with a valid address (40_enumeration.md R76, R77); the bus
calls before it leave the block alone. -/
theorem searchBus_cases (s : State) :
    (∃ c u, (c = .noPresence ∨ c = .noResponse ∨ c = .addressCrc) ∧ SameBlock s u ∧ searchBus s = searchFail c u) ∨
    ∃ q u, SameBlock s u ∧ addrValid s.params q.work = true ∧ -1 ≤ q.lz.toInt ∧ q.lz.toInt ≤ 63 ∧
      searchBus s = searchCommit q u := by
  have hb := busReset_sameBlock s
  unfold searchBus
  simp only
  split
  · have h2 := (hb.trans (busWriteByte_sameBlock cmdSearchRom _)).trans (searchBits_sameBlock 64 0 ⟨0, 0xFF⟩ _)
    unfold searchEnd
    cases hr : searchBits 64 0 ⟨0, 0xFF⟩ (busWriteByte cmdSearchRom (busReset s).2) with
    | mk o u =>
      rw [hr] at h2
      cases o with
      | none => exact .inl ⟨.noResponse, u, by simp, h2, rfl⟩
      | some q =>
        have hlz := searchBits_lz (q := ⟨0, 0xFF⟩) (by omega) (by decide) (congrArg Prod.fst hr)
        simp only
        split
        · next hv => exact .inr ⟨q, u, h2, by rw [← h2.params]; exact hv, hlz.1, hlz.2, rfl⟩
        · exact .inl ⟨.addressCrc, u, by simp, h2, rfl⟩
  · exact .inl ⟨.noPresence, _, by simp, hb, rfl⟩

/-- All that SEARCH can do (40_enumeration.md R69, R70). -/
theorem execSearch_cases {s t : State} (h : execSearch s = .next t) :
    t = raise .noDevice (beginCommand s) ∨ t = raise .tableFull (beginCommand s) ∨
      (s.cur.done = false ∧ s.tblCount ≠ s.maxNumDevices ∧ t = searchBus (beginCommand s)) := by
  simp only [execSearch] at h
  injection h with h
  split at h
  · exact .inl h.symm
  · next hd =>
    split at h
    · exact .inr (.inl h.symm)
    · next hc => exact .inr (.inr ⟨by simpa using hd, hc, h.symm⟩)

end Sys2Proof.Machine
end

