-- ==== Sys2Proof/Laws/PerInstr.lean ====
section
/-! SUPPORT. Per-instruction laws of the encoder: the fields of the word of a well-formed command (30_encoding.md R49–R51). -/

namespace Sys2Proof

/-- A byte has no bit at or above 8. -/
theorem byte_bit_high (b : Byte) {k : Nat} (h : 8 ≤ k) : b.getLsbD k = false := BitVec.getLsbD_of_ge _ _ h

/-- OP of an assembled word (30_encoding.md R49). -/
@[simp] theorem opField_commandWord (op : Byte) (slot bits : Nat) : opField (commandWord op slot bits) = op := by
  ext i hi
  have h1 : i < 16 := by omega
  have h2 : i < 32 := by omega
  simp [opField, commandWord, hi, h1, h2]

/-- SLOT of an assembled word (30_encoding.md R49). -/
@[simp] theorem slotField_commandWord (op : Byte) (slot bits : Nat) :
    slotField (commandWord op slot bits) = BitVec.ofNat 8 slot := by
  ext i hi
  have h1 : 8 + i < 16 := by omega
  have h2 : 8 + i < 32 := by omega
  simp [slotField, commandWord, hi, h1, h2]

/-- ARG of an assembled word (30_encoding.md R49). -/
@[simp] theorem argField_commandWord (op : Byte) (slot bits : Nat) :
    argField (commandWord op slot bits) = BitVec.ofNat 8 bits := by
  ext i hi
  have h1 : 16 + i < 32 := by omega
  simp [argField, commandWord, hi, h1, byte_bit_high (BitVec.ofNat 8 slot) (k := 16 + i - 8) (by omega),
    byte_bit_high op (k := 16 + i) (by omega)]

/-- RSVD of an assembled word is 0 (30_encoding.md R49). -/
@[simp] theorem rsvdField_commandWord (op : Byte) (slot bits : Nat) : rsvdField (commandWord op slot bits) = 0 := by
  ext i hi
  simp [rsvdField, commandWord, byte_bit_high (BitVec.ofNat 8 bits) (k := 24 + i - 16) (by omega),
    byte_bit_high (BitVec.ofNat 8 slot) (k := 24 + i - 8) (by omega), byte_bit_high op (k := 24 + i) (by omega)]

namespace Laws.EncodeFields

/-- OP, SLOT and ARG of each command (30_encoding.md R51). -/
def fieldsOf : Instr → Byte × Nat × Nat
  | .resetSearch => (0x01, 0, 0)
  | .search => (0x02, 0, 0)
  | .getCursor => (0x03, 0, 0)
  | .clearTable => (0x08, 0, 0)
  | .getSlotCount => (0x09, 0, 0)
  | .getType n => (0x10, n, 0)
  | .getTypeStr n => (0x11, n, 0)
  | .getAddress n => (0x12, n, 0)
  | .getResolution n => (0x13, n, 0)
  | .getState n => (0x14, n, 0)
  | .setResolution n bits => (0x20, n, bits)
  | .retrieveData n => (0x21, n, 0)
  | .getCelsius n => (0x30, n, 0)
  | .getFahrenheit n => (0x31, n, 0)

/-- The word of a well-formed command has the fields of its row and RSVD 0, and no operand bit is dropped. -/
def Statement (i : Instr) : Prop :=
  i.wf = true →
    opField (encode i) = (fieldsOf i).1 ∧ (slotField (encode i)).toNat = (fieldsOf i).2.1 ∧
      (argField (encode i)).toNat = (fieldsOf i).2.2 ∧ rsvdField (encode i) = 0

theorem resetSearch : Statement .resetSearch := by simp [Statement, encode, fieldsOf]
theorem search : Statement .search := by simp [Statement, encode, fieldsOf]
theorem getCursor : Statement .getCursor := by simp [Statement, encode, fieldsOf]
theorem clearTable : Statement .clearTable := by simp [Statement, encode, fieldsOf]
theorem getSlotCount : Statement .getSlotCount := by simp [Statement, encode, fieldsOf]
theorem getType (n : Nat) : Statement (.getType n) := by simp [Statement, encode, fieldsOf, Instr.wf]; omega
theorem getTypeStr (n : Nat) : Statement (.getTypeStr n) := by simp [Statement, encode, fieldsOf, Instr.wf]; omega
theorem getAddress (n : Nat) : Statement (.getAddress n) := by simp [Statement, encode, fieldsOf, Instr.wf]; omega
theorem getResolution (n : Nat) : Statement (.getResolution n) := by simp [Statement, encode, fieldsOf, Instr.wf]; omega
theorem getState (n : Nat) : Statement (.getState n) := by simp [Statement, encode, fieldsOf, Instr.wf]; omega
theorem setResolution (n bits : Nat) : Statement (.setResolution n bits) := by
  simp [Statement, encode, fieldsOf, Instr.wf]; omega
theorem retrieveData (n : Nat) : Statement (.retrieveData n) := by simp [Statement, encode, fieldsOf, Instr.wf]; omega
theorem getCelsius (n : Nat) : Statement (.getCelsius n) := by simp [Statement, encode, fieldsOf, Instr.wf]; omega
theorem getFahrenheit (n : Nat) : Statement (.getFahrenheit n) := by simp [Statement, encode, fieldsOf, Instr.wf]; omega

end Laws.EncodeFields

end Sys2Proof
end

