-- ==== Sys2Proof/Laws/Reference.lean ====
section
/-! SUPPORT. The block on the reference bus (20_memory.md R47): the calls, a search among the sensors, the order of the addresses it
yields, and a transaction with one sensor. -/

namespace Sys2Proof.Machine

/-- BusReset on the reference bus (20_memory.md R47). -/
theorem busReset_reference {s : State} {r : RefBus} (h : s.env = .reference r) :
    busReset s = (!r.sensors.isEmpty,
      { s with env := .reference (refReset r), trace := s.trace ++ [.reset (!r.sensors.isEmpty)] }) := by
  simp [busReset, h, drawPresence, emit, setEnv]

/-- BusReadBit on the reference bus. -/
theorem busReadBit_reference {s : State} {r : RefBus} (h : s.env = .reference r) :
    busReadBit s = (refReadBit r,
      { s with env := .reference (refAfterReadBit r), trace := s.trace ++ [.readBit (refReadBit r)] }) := by
  simp [busReadBit, h, drawBit, emit, setEnv]

/-- BusReadByte on the reference bus. -/
theorem busReadByte_reference {s : State} {r : RefBus} (h : s.env = .reference r) :
    busReadByte s = (refReadByte r,
      { s with env := .reference (refAfterReadByte r), trace := s.trace ++ [.readByte (refReadByte r)] }) := by
  simp [busReadByte, h, drawByte, emit, setEnv]

/-- BusWriteBit on the reference bus. -/
theorem busWriteBit_reference {s : State} {r : RefBus} (h : s.env = .reference r) (b : Bool) :
    busWriteBit b s = { s with env := .reference (refWriteBit b r), trace := s.trace ++ [.writeBit b] } := by
  simp [busWriteBit, h, sendBit, emit, setEnv]

/-- BusWriteByte on the reference bus. -/
theorem busWriteByte_reference {s : State} {r : RefBus} (h : s.env = .reference r) (b : Byte) :
    busWriteByte b s = { s with env := .reference (refWriteByte b (Config.freeScratchpad s.draws) r), draws := s.draws + 1,
                                trace := s.trace ++ [.writeByte b] } := by
  simp [busWriteByte, h, sendByte, emit, setEnv]

/-- What a search leaves alone of a sensor: all but its place in P. -/
def sensorCore (d : Sensor) : Addr × Scratchpad × List Scratchpad := (d.addr, d.pad, d.conversions)

/-- Two addresses agree on the bits below i. -/
def AgreeBelow (i : Nat) (a b : Addr) : Prop := ∀ k < i, addrBit a k = addrBit b k

/-- The direction a conflict at bit i takes (40_enumeration.md R73). -/
def conflictDir (c : Cursor) (i : Nat) : Bool :=
  if (i : Int) < c.ld.toInt then addrBit c.la i else decide ((i : Int) = c.ld.toInt)

/-- Bit i of `a` is a conflict among the addresses `as` that took 0. -/
def ZeroBranch (as : List Addr) (a : Addr) (i : Nat) : Prop :=
  addrBit a i = false ∧ ∃ d ∈ as, AgreeBelow i d a ∧ addrBit d i = true

theorem agreeBelow_refl (i : Nat) (a : Addr) : AgreeBelow i a a := fun _ _ => rfl
theorem AgreeBelow.trans {i : Nat} {a b c : Addr} (h : AgreeBelow i a b) (g : AgreeBelow i b c) : AgreeBelow i a c :=
  fun k hk => (h k hk).trans (g k hk)
theorem AgreeBelow.symm {i : Nat} {a b : Addr} (h : AgreeBelow i a b) : AgreeBelow i b a := fun k hk => (h k hk).symm
theorem AgreeBelow.mono {i j : Nat} {a b : Addr} (h : AgreeBelow i a b) (hj : j ≤ i) : AgreeBelow j a b :=
  fun k hk => h k (by omega)
theorem agreeBelow_succ {i : Nat} {a b : Addr} : AgreeBelow (i+1) a b ↔ AgreeBelow i a b ∧ addrBit a i = addrBit b i :=
  ⟨fun h => ⟨h.mono (by omega), h i (by omega)⟩, fun h k hk => by
    rcases Nat.lt_succ_iff_lt_or_eq.1 hk with h1 | rfl
    · exact h.1 k h1
    · exact h.2⟩
/-- Addresses that agree on all 64 bits are equal. -/
theorem agreeBelow_full {a b : Addr} : AgreeBelow 64 a b ↔ a = b :=
  ⟨fun h => BitVec.eq_of_getLsbD_eq fun i hi => h i hi, fun h => h ▸ agreeBelow_refl _ _⟩

/-- The bit steps from bit i to the end on the reference bus (20_memory.md R47, 40_enumeration.md R73): no (1, 1) pair is met, the
address assembled is one on the bus, each conflict on its path took `conflictDir`, and SEQ.LZ is the last of them that took 0. -/
theorem searchBits_reference (as : List Addr) (n i : Nat) (q : SearchSeq) (s : State) (r : RefBus) (hn : i + n = 64)
    (he : s.env = .reference r) (hp : i < 64 → r.phase = .search false i) (ha : r.sensors.map (·.addr) = as)
    (ht : ∀ d ∈ r.sensors, d.taking = true ↔ AgreeBelow i d.addr q.work) (hne : ∃ d ∈ r.sensors, AgreeBelow i d.addr q.work) :
    ∃ q' u r', searchBits n i q s = (some q', u) ∧ SameBlock s u ∧ u.env = .reference r' ∧
      r'.sensors.map sensorCore = r.sensors.map sensorCore ∧ q'.work ∈ as ∧ AgreeBelow i q'.work q.work ∧
      (∀ j, i ≤ j → j < 64 → ∀ d ∈ as, AgreeBelow j d q'.work → addrBit d j ≠ addrBit q'.work j →
        addrBit q'.work j = conflictDir s.cur j) ∧
      ((q'.lz = q.lz ∧ ∀ j, i ≤ j → j < 64 → ¬ZeroBranch as q'.work j) ∨
        ∃ j, i ≤ j ∧ j < 64 ∧ q'.lz = BitVec.ofNat 8 j ∧ ZeroBranch as q'.work j ∧
          ∀ k, j < k → k < 64 → ¬ZeroBranch as q'.work k) := by
  induction n generalizing i q s r with
  | zero =>
    obtain ⟨d, hd, hd2⟩ := hne
    have : i = 64 := by omega
    subst this
    refine ⟨q, s, r, rfl, .refl s, he, rfl, ?_, agreeBelow_refl _ _, by omega, .inl ⟨rfl, by omega⟩⟩
    rw [← ha, ← agreeBelow_full.1 hd2]; exact List.mem_map_of_mem hd
  | succ n ih =>
    replace hp := hp (by omega)
    set b := wiredAnd r false i with hb
    set cb := wiredAnd r true i with hcb
    have e1 : busReadBit s = (b, { s with env := .reference { r with phase := .search true i }, trace := s.trace ++ [.readBit b] }) := by
      rw [busReadBit_reference he]; simp [refReadBit, refAfterReadBit, hp, hb]
    have e2 : busReadBit (busReadBit s).2 = (cb, { s with env := .reference { r with phase := .search false i }, trace := s.trace ++ [.readBit b, .readBit cb] }) := by
      rw [e1, busReadBit_reference rfl]; simp [refReadBit, refAfterReadBit, hcb]; rfl
    have hb1 : b = true ↔ ∀ d ∈ r.sensors, AgreeBelow i d.addr q.work → addrBit d.addr i = true := by
      simp only [hb, wiredAnd, List.all_eq_true]
      refine forall₂_congr fun d hd => ?_
      rw [← ht d hd]; cases d.taking <;> simp
    have hcb1 : cb = true ↔ ∀ d ∈ r.sensors, AgreeBelow i d.addr q.work → addrBit d.addr i = false := by
      simp only [hcb, wiredAnd, List.all_eq_true]
      refine forall₂_congr fun d hd => ?_
      rw [← ht d hd]; cases d.taking <;> simp
    have hnr : (b && cb) = false := by
      obtain ⟨d, hd, hd2⟩ := hne
      by_contra hc
      simp only [Bool.not_eq_false, Bool.and_eq_true] at hc
      have h1 := hb1.1 hc.1 d hd hd2
      have h2 := hcb1.1 hc.2 d hd hd2
      simp [h1] at h2
    set dir := chooseDir s.cur b cb i with hdir
    have hd' : ∃ d ∈ r.sensors, AgreeBelow i d.addr q.work ∧ addrBit d.addr i = dir := by
      by_cases hbb : b = true
      · have hcf : cb = false := by simpa [hbb] using hnr
        have : dir = true := by simp [hdir, chooseDir, hbb, hcf]
        obtain ⟨d, hd, hd2⟩ := hne
        exact ⟨d, hd, hd2, by rw [this]; exact hb1.1 hbb d hd hd2⟩
      · by_cases hcc : cb = true
        · have : dir = false := by simp [hdir, chooseDir, hbb, hcc]
          obtain ⟨d, hd, hd2⟩ := hne
          exact ⟨d, hd, hd2, by rw [this]; exact hcb1.1 hcc d hd hd2⟩
        · cases hdv : dir with
          | true => simp only [hcb1, not_forall] at hcc; obtain ⟨d, hd, hd2, h3⟩ := hcc; exact ⟨d, hd, hd2, by simpa using h3⟩
          | false => simp only [hb1, not_forall] at hbb; obtain ⟨d, hd, hd2, h3⟩ := hbb; exact ⟨d, hd, hd2, by simpa using h3⟩
    have hcd : ∀ d ∈ r.sensors, AgreeBelow i d.addr q.work → addrBit d.addr i ≠ dir → dir = conflictDir s.cur i := by
      intro d hd hd2 h3
      obtain ⟨d', hd', hd2', h3'⟩ := hd'
      have hbf : b = false := by
        by_contra hc
        have hc : b = true := by simpa using hc
        exact h3 ((hb1.1 hc d hd hd2).trans ((h3' ▸ hb1.1 hc d' hd' hd2').symm))
      have hcf : cb = false := by
        by_contra hc
        have hc : cb = true := by simpa using hc
        exact h3 ((hcb1.1 hc d hd hd2).trans ((h3' ▸ hcb1.1 hc d' hd' hd2').symm))
      simp [hdir, chooseDir, hbf, hcf, conflictDir]
    have hz : zeroConflict b cb dir = true ↔ dir = false ∧ ∃ d ∈ r.sensors, AgreeBelow i d.addr q.work ∧ addrBit d.addr i = true := by
      obtain ⟨d', hd', hd2', h3'⟩ := hd'
      constructor
      · intro h
        simp only [zeroConflict, Bool.and_eq_true, Bool.not_eq_true'] at h
        refine ⟨h.2, ?_⟩
        have : ¬ cb = true := by simp [h.1.2]
        simp only [hcb1, not_forall] at this
        obtain ⟨d, hd, hd2, h3⟩ := this
        exact ⟨d, hd, hd2, by simpa using h3⟩
      · rintro ⟨h1, d, hd, hd2, h3⟩
        have hbf : ¬ b = true := fun hc => by have := hb1.1 hc d' hd' hd2'; simp [h3', h1] at this
        have hcf : ¬ cb = true := fun hc => by have := hcb1.1 hc d hd hd2; simp [h3] at this
        simp [zeroConflict, h1, hbf, hcf]
    have hw : ∀ j, addrBit (q.take i b cb dir).work j = if j = i then dir else addrBit q.work j := by
      intro j; simp only [SearchSeq.take]; rw [addrBit_setAddrBit _ (by omega)]
    have hag : ∀ a, AgreeBelow (i+1) a (q.take i b cb dir).work ↔ AgreeBelow i a q.work ∧ addrBit a i = dir := by
      intro a
      rw [agreeBelow_succ, hw i, if_pos rfl]
      refine and_congr_left fun _ => forall₂_congr fun k hk => ?_
      rw [hw k, if_neg (by omega)]
    rw [searchBits_succ (by rw [e2, e1]; exact hnr)]
    rw [e2, e1]
    simp only
    rw [← hdir, busWriteBit_reference rfl]
    obtain ⟨q', u, r', h1, h2, h3, h4, h5, h6, h7, h8⟩ := ih (i+1) (q.take i b cb dir)
      { s with env := .reference (refWriteBit dir { r with phase := .search false i }), trace := s.trace ++ [.readBit b, .readBit cb] ++ [.writeBit dir] }
      (refWriteBit dir { r with phase := .search false i }) (by omega) rfl
      (fun h => by simp [refWriteBit, show i < 63 by omega])
      (by simp [refWriteBit, ← ha, Function.comp_def])
      (by
        intro d hd
        simp only [refWriteBit, List.mem_map] at hd
        obtain ⟨d0, hd0, rfl⟩ := hd
        rw [hag]; simp [ht d0 hd0])
      (by
        obtain ⟨d, hd, hd2, h3⟩ := hd'
        refine ⟨{ d with taking := d.taking && (addrBit d.addr i == dir) }, ?_, (hag _).2 ⟨hd2, h3⟩⟩
        simp only [refWriteBit, List.mem_map]; exact ⟨d, hd, rfl⟩)
    have h6' := (hag _).1 h6
    refine ⟨q', u, r', h1, ⟨h2.params, h2.cur, h2.slots, h2.cmd, h2.status, h2.rdata, h2.raux, h2.inputs⟩, h3, ?_, h5, h6'.1, ?_, ?_⟩
    · rw [h4]; simp [refWriteBit, sensorCore]
    · intro j hj hj2 d hd hd2 hd3
      by_cases hji : j = i
      · subst hji
        rw [← ha] at hd
        obtain ⟨d0, hd0, rfl⟩ := List.mem_map.1 hd
        rw [h6'.2]
        exact hcd d0 hd0 (hd2.trans h6'.1) (by rw [← h6'.2]; exact hd3)
      · exact h7 j (by omega) hj2 d hd hd2 hd3
    · have hzi : zeroConflict b cb dir = true ↔ ZeroBranch as q'.work i := by
        rw [hz]
        unfold ZeroBranch
        rw [h6'.2, ← ha]
        refine and_congr_right fun _ => ?_
        constructor
        · rintro ⟨d, hd, hd2, h⟩; exact ⟨d.addr, List.mem_map_of_mem hd, hd2.trans h6'.1.symm, h⟩
        · rintro ⟨d, hd, hd2, h⟩
          obtain ⟨d0, hd0, rfl⟩ := List.mem_map.1 hd
          exact ⟨d0, hd0, hd2.trans h6'.1, h⟩
      rcases h8 with ⟨h9, h10⟩ | ⟨j, hj, hj2, hj3, hj4, hj5⟩
      · by_cases hc : zeroConflict b cb dir = true
        · right
          exact ⟨i, le_refl _, by omega, by rw [h9]; simp [SearchSeq.take, hc], hzi.1 hc, fun k hk hk2 => h10 k (by omega) hk2⟩
        · left
          refine ⟨by rw [h9]; simp [SearchSeq.take, hc], fun j hj hj2 => ?_⟩
          by_cases hji : j = i
          · subst hji; rwa [hzi] at hc
          · exact h10 j (by omega) hj2
      · right; exact ⟨j, by omega, hj2, hj3, hj4, hj5⟩
/-- SEARCH on the reference bus with sensors of the addresses `as`: it walks to an address on the bus, and its 194 calls leave the
block and the sensors' contents alone. -/
theorem searchBus_reference {s : State} {r : RefBus} {as : List Addr} (he : s.env = .reference r)
    (ha : r.sensors.map (·.addr) = as) (hne : as ≠ []) :
    ∃ q u r', searchBus s = searchEnd (some q, u) ∧ SameBlock s u ∧ u.env = .reference r' ∧
      r'.sensors.map sensorCore = r.sensors.map sensorCore ∧ q.work ∈ as ∧
      (∀ j < 64, ∀ d ∈ as, AgreeBelow j d q.work → addrBit d j ≠ addrBit q.work j → addrBit q.work j = conflictDir s.cur j) ∧
      ((q.lz = 0xFF ∧ ∀ j < 64, ¬ZeroBranch as q.work j) ∨
        ∃ j < 64, q.lz = BitVec.ofNat 8 j ∧ ZeroBranch as q.work j ∧ ∀ k, j < k → k < 64 → ¬ZeroBranch as q.work k) := by
  have hse : r.sensors ≠ [] := by rintro h; simp [h] at ha; exact hne ha
  have h0 : r.sensors.isEmpty = false := by simpa using hse
  unfold searchBus
  rw [busReset_reference he, h0]
  simp only [Bool.not_false, if_true]
  rw [busWriteByte_reference rfl]
  obtain ⟨q, u, r', h1, h2, h3, h4, h5, -, h6, h7⟩ := searchBits_reference as 64 0 ⟨0, 0xFF⟩
    { s with env := .reference (refWriteByte cmdSearchRom (Config.freeScratchpad s.draws) (refReset r)), draws := s.draws + 1,
             trace := s.trace ++ [.reset true] ++ [.writeByte cmdSearchRom] }
    (refWriteByte cmdSearchRom (Config.freeScratchpad s.draws) (refReset r)) rfl rfl (fun _ => rfl)
    (by simp [refWriteByte, refReset, ← ha, Function.comp_def])
    (by
      intro d hd
      simp only [refWriteByte, refReset, if_true, List.mem_map] at hd
      obtain ⟨d0, -, rfl⟩ := hd
      simp [AgreeBelow])
    (by
      obtain ⟨d, l, hl⟩ := List.exists_cons_of_ne_nil hse
      exact ⟨{ d with taking := true }, by simp [refWriteByte, refReset, hl], by simp [AgreeBelow]⟩)
  refine ⟨q, u, r', by rw [h1], ⟨h2.params, h2.cur, h2.slots, h2.cmd, h2.status, h2.rdata, h2.raux, h2.inputs⟩, h3, ?_, h5,
    fun j hj => h6 j (Nat.zero_le _) hj, ?_⟩
  · rw [h4]; simp [refWriteByte, refReset, sensorCore, Function.comp_def]
  · rcases h7 with ⟨h8, h9⟩ | ⟨j, -, hj, h8, h9, h10⟩
    · exact .inl ⟨h8, fun j hj => h9 j (Nat.zero_le _) hj⟩
    · exact .inr ⟨j, hj, h8, h9, h10⟩

/-- The first n bits in search order as a binary number. -/
theorem orderKey_prefix (a : Addr) (n : Nat) :
    ((List.range (n + 1)).map fun i => if addrBit a i then 2 ^ (n - i) else 0).sum =
      2 * ((List.range n).map fun i => if addrBit a i then 2 ^ (n - 1 - i) else 0).sum + (addrBit a n).toNat := by
  rw [List.range_succ, List.map_append, List.sum_append]
  congr 1
  · rw [← List.sum_map_mul_left]
    congr 1
    apply List.map_congr_left
    intro i hi
    have : i < n := by simpa using hi
    split
    · rw [show n - i = (n - 1 - i) + 1 by omega, pow_succ]; omega
    · rfl
  · by_cases hn : addrBit a n = true <;> simp [hn]

/-- Prefixes are equal as numbers iff the bits agree, and smaller iff the first bit that differs is 0. -/
theorem orderKey_prefix_lt (a b : Addr) (n : Nat) (h : n ≤ 64) :
    let key := fun a : Addr => ((List.range n).map fun i => if addrBit a i then 2 ^ (n - 1 - i) else 0).sum
    (key a = key b ↔ AgreeBelow n a b) ∧
    (key a < key b ↔ ∃ j < n, AgreeBelow j a b ∧ addrBit a j = false ∧ addrBit b j = true) := by
  induction n with
  | zero => simp [AgreeBelow]
  | succ n ih =>
    simp only at ih ⊢
    obtain ⟨ih1, ih2⟩ := ih (by omega)
    rw [show n + 1 - 1 = n from rfl, orderKey_prefix a n, orderKey_prefix b n]
    rw [agreeBelow_succ, ← ih1]
    generalize ((List.range n).map fun i => if addrBit a i then 2 ^ (n - 1 - i) else 0).sum = x at *
    generalize ((List.range n).map fun i => if addrBit b i then 2 ^ (n - 1 - i) else 0).sum = y at *
    constructor
    · cases addrBit a n <;> cases addrBit b n <;> simp <;> omega
    · have : (∃ j < n + 1, AgreeBelow j a b ∧ addrBit a j = false ∧ addrBit b j = true) ↔ 
        (x < y ∨ (x = y ∧ addrBit a n = false ∧ addrBit b n = true)) := by
        rw [ih1, ih2]
        constructor
        · rintro ⟨j, hj, hx⟩
          rcases Nat.lt_succ_iff_lt_or_eq.1 hj with h1 | rfl
          · exact .inl ⟨j, h1, hx⟩
          · exact .inr hx
        · rintro (⟨j, hj, h⟩ | h)
          · exact ⟨j, by omega, h⟩
          · exact ⟨n, by omega, h⟩
      rw [this]
      cases addrBit a n <;> cases addrBit b n <;> simp <;> omega

/-- The order of K: the first bit in search order that differs decides (40_enumeration.md R80). -/
theorem orderKey_lt_iff (a b : Addr) :
    orderKey a < orderKey b ↔ ∃ j < 64, AgreeBelow j a b ∧ addrBit a j = false ∧ addrBit b j = true :=
  (orderKey_prefix_lt a b 64 (by omega)).2

/-- Distinct addresses have distinct keys. -/
theorem orderKey_inj {a b : Addr} (h : orderKey a = orderKey b) : a = b :=
  agreeBelow_full.1 ((orderKey_prefix_lt a b 64 (by omega)).1.1 h)

/-- With no branch position, the address walked to is the least on the bus in the order of K. -/
theorem search_first {as : List Addr} {c : Cursor} {b : Addr} (hc : c.ld.toInt = -1)
    (hconf : ∀ j < 64, ∀ d ∈ as, AgreeBelow j d b → addrBit d j ≠ addrBit b j → addrBit b j = conflictDir c j) :
    ∀ d ∈ as, orderKey b ≤ orderKey d := by
  intro d hd
  by_contra h
  rw [not_le, orderKey_lt_iff] at h
  obtain ⟨j, hj, h1, h2, h3⟩ := h
  have := hconf j hj d hd h1 (by simp [h2, h3])
  rw [h3, conflictDir, hc, if_neg (by omega)] at this
  simp at this

/-- With the last 0-branch of an address on the bus as branch position, the address walked to is the next in the order of K. -/
theorem search_next {as : List Addr} {c : Cursor} {b : Addr} {j : Nat} (hj : j < 64) (hc : c.ld = BitVec.ofNat 8 j)
    (ha : c.la ∈ as)    (hz : ZeroBranch as c.la j) (hl : ∀ k, j < k → k < 64 → ¬ZeroBranch as c.la k)
    (hconf : ∀ j < 64, ∀ d ∈ as, AgreeBelow j d b → addrBit d j ≠ addrBit b j → addrBit b j = conflictDir c j) :
    orderKey c.la < orderKey b ∧ ∀ d ∈ as, orderKey c.la < orderKey d → orderKey b ≤ orderKey d := by
  have hld : c.ld.toInt = j := by rw [hc, branchPos_toInt hj]
  have hlt : ∀ k < j, conflictDir c k = addrBit c.la k := fun k hk => by rw [conflictDir, hld, if_pos (by omega)]
  have heq : conflictDir c j = true := by rw [conflictDir, hld, if_neg (by omega)]; simp
  have hgt : ∀ k, j < k → conflictDir c k = false := fun k hk => by rw [conflictDir, hld, if_neg (by omega)]; simp; omega
  have hag : ∀ k ≤ j, AgreeBelow k c.la b := by
    intro k
    induction k with
    | zero => intro _ m hm; omega
    | succ k ih =>
      intro hk
      refine agreeBelow_succ.2 ⟨ih (by omega), ?_⟩
      by_contra hne
      have := hconf k (by omega) c.la ha (ih (by omega)) hne
      exact hne (by rw [this, hlt k (by omega)])
  have hbj : addrBit b j = true := by
    obtain ⟨-, d, hd, hd2, hd3⟩ := hz
    by_contra hne
    have := hconf j hj d hd (hd2.trans (hag j (le_refl _))) (by rw [hd3]; simpa using hne)
    exact hne (by rw [this, heq])
  refine ⟨(orderKey_lt_iff _ _).2 ⟨j, hj, hag j (le_refl _), hz.1, hbj⟩, fun d hd hlt' => ?_⟩
  by_contra h
  rw [not_le, orderKey_lt_iff] at h
  obtain ⟨p, hp, hp1, hp2, hp3⟩ := h
  obtain ⟨m, hm, hm1, hm2, hm3⟩ := (orderKey_lt_iff _ _).1 hlt'
  have hmj : m ≤ j := by by_contra hc; exact hl m (by omega) hm ⟨hm2, d, hd, hm1.symm, hm3⟩
  have hpd := hconf p hp d hd hp1 (by simp [hp2, hp3])
  have hpj : p ≤ j := by by_contra hc; rw [hgt p (by omega)] at hpd; simp [hp3] at hpd
  rcases lt_trichotomy p m with h1 | rfl | h1
  · have := hag j (le_refl _) p (by omega)
    have h2 := hm1 p h1
    rw [this, hp3] at h2; simp [hp2] at h2
  · simp [hp2] at hm3
  · have h2 := hp1 m h1
    have h3 := hag j (le_refl _) m (by omega)
    rw [← h3, hm2] at h2; simp [hm3] at h2

/-- The address bytes select the address (20_memory.md R33, R35, R47). -/
theorem packBytes_addrBytes (a : Addr) : packBytes (addrBytes a) = a := by
  apply BitVec.eq_of_getLsbD_eq
  intro i hi
  simp [addrBytes, packBytes, addrByte]
  interval_cases i <;> simp

/-- The reference bus after a written byte. -/
theorem busWriteByte_env_reference {s : State} {r : RefBus} (h : s.env = .reference r) (b : Byte) :
    (busWriteByte b s).env = .reference (refWriteByte b (Config.freeScratchpad s.draws) r) := by
  rw [busWriteByte_reference h]

/-- Eight bytes of Match ROM select an address, whatever its length so far (20_memory.md R47). -/
theorem busWriteBytes_matching (bs : List Byte) {s : State} {ds : List Sensor} {got : List Byte}
    (h : s.env = .reference ⟨ds, .matching got⟩) (hl : got.length + bs.length = 8) (hb : bs ≠ []) :
    (busWriteBytes bs s).env = .reference ⟨ds, .selected (packBytes (got ++ bs))⟩ := by
  induction bs generalizing s got with
  | nil => exact absurd rfl hb
  | cons b rest ih =>
    have h1 := busWriteByte_env_reference h b
    rw [busWriteBytes]
    cases rest with
    | nil => simp_all [refWriteByte, busWriteBytes]
    | cons c rest =>
      have hg : got.length ≠ 7 := by simp at hl; omega
      rw [ih (got := got ++ [b]) (by rw [h1]; simp [refWriteByte, hg]) (by simp at hl ⊢; omega) (by simp)]
      simp

/-- BusReset, Match ROM and the address bytes select the address, and change no sensor's contents (20_memory.md R47). -/
theorem matchRom_env_reference {s : State} {r : RefBus} (h : s.env = .reference r) (a : Addr) :
    (matchRom a s).env = .reference ⟨r.sensors.map fun d => { d with taking := true }, .selected a⟩ := by
  have h1 : (busReset s).2.env = .reference (refReset r) := by rw [busReset_reference h]
  have h2 := busWriteByte_env_reference h1 cmdMatchRom
  rw [matchRom, busWriteBytes_matching (addrBytes a) (got := []) (h2.trans rfl) rfl (by simp [addrBytes]), List.nil_append,
    packBytes_addrBytes]
  rfl

/-- Read Scratchpad gives the scratchpad of the sensor that has the selected address, and nine 0xFF bytes where there is none
(20_memory.md R47). -/
theorem readScratchpad_reference {s : State} {ds : List Sensor} {a : Addr} (h : s.env = .reference ⟨ds, .reading a 0⟩) :
    (readScratchpad s).1 =
      match ds.find? (fun d => d.addr == a) with
      | some d => d.pad
      | none => ⟨0xFF, 0xFF, 0xFF, 0xFF, 0xFF, 0xFF, 0xFF, 0xFF, 0xFF⟩ := by
  have hs : ∀ {u : State} {k : Nat}, u.env = .reference ⟨ds, .reading a k⟩ →
      (busReadByte u).1 = (match ds.find? (fun d => d.addr == a) with | some d => padByte d.pad k | none => 0xFF) ∧
      (busReadByte u).2.env = .reference ⟨ds, .reading a (k + 1)⟩ := by
    intro u k hu
    rw [busReadByte_reference hu]
    exact ⟨rfl, rfl⟩
  have h1 := hs h
  have h2 := hs h1.2
  have h3 := hs h2.2
  have h4 := hs h3.2
  have h5 := hs h4.2
  have h6 := hs h5.2
  have h7 := hs h6.2
  have h8 := hs h7.2
  have h9 := hs h8.2
  simp only [readScratchpad, h1.1, h2.1, h3.1, h4.1, h5.1, h6.1, h7.1, h8.1, h9.1]
  cases ds.find? (fun d => d.addr == a) <;> rfl

/-- SET_RESOLUTION on the reference bus writes TH, TL and the configuration byte to the sensor that has the address, and to no
other (20_memory.md R47, 41_device.md R92). -/
theorem writeConfig_env_reference {s : State} {r : RefBus} (h : s.env = .reference r) (a : Addr) (x : Resolution) :
    ∃ r', (writeConfig a x s).env = .reference r' ∧
      r'.sensors = (r.sensors.map fun d => { d with taking := true }).map fun d =>
        if d.addr = a then { d with pad := { d.pad with b2 := s.params.wsTh, b3 := s.params.wsTl, b4 := configByte x } } else d := by
  have h1 := (busWriteByte_env_reference (matchRom_env_reference h a) cmdWriteScratchpad).trans
    (b := Env.reference ⟨r.sensors.map fun d => { d with taking := true }, .writing a 0⟩) rfl
  have h2 := (busWriteByte_env_reference h1 s.params.wsTh).trans (b := Env.reference ⟨_, .writing a 1⟩) rfl
  have h3 := (busWriteByte_env_reference h2 s.params.wsTl).trans (b := Env.reference ⟨_, .writing a 2⟩) rfl
  have h4 := (busWriteByte_env_reference h3 (configByte x)).trans (b := Env.reference ⟨_, .idle⟩) rfl
  refine ⟨_, h4, ?_⟩
  simp only [onSensor, List.map_map]
  apply List.map_congr_left
  intro d _
  by_cases hd : d.addr = a <;> simp [hd, setPadByte]

end Sys2Proof.Machine
end

