-- ==== Sys2Proof/Tests/Slice0.lean ====
section
/-! SUPPORT. Tests on values of spec/95_test_vectors.md, the smoke tests of WellFormed, and a witness for the hypotheses of each
statement that has any. "V-..." names the vector an expected value comes from. -/

open Sys2Proof Sys2Proof.Machine

set_option maxRecDepth 100000

namespace Sys2Proof.Tests

/-! ## Small states -/

/-- The addresses S, B2, B, D and X of the test vectors. -/
def addrS : Addr := 0x880008017C3EA210
def addrB2 : Addr := 0x71000005550C3A28
def addrB : Addr := 0xFE0416916A4BFF28
def addrD : Addr := 0x090000003B1D6E22
def addrX : Addr := 0x72000005550C3A28

/-- An instance with MAX_NUM_DEVICES = m + 1 and the defaults. -/
def inst (m : Fin 256) : Params := { lastSlot := m, crc := .dallasMaxim, wsTh := 0x00, wsTl := 0x00, layout := .vendor67 }

/-- A slot as SEARCH allocates it. -/
def freshSlot (a : Addr) (t : DeviceType) : Slot :=
  { addr := a, type := t, res := .r12, temp := 0, tvalid := false, state := .discovered }

/-- The table after program P1. -/
def tableP1 : List Slot := [freshSlot addrS .ds18s20, freshSlot addrB2 .ds18b20, freshSlot addrB .ds18b20, freshSlot addrD .ds1822]

/-- A sensor with an all-zero scratchpad and no prepared conversion. -/
def sensor (a : Addr) : Sensor := { addr := a, pad := ⟨0, 0, 0, 0, 0, 0, 0, 0, 0⟩, conversions := [], taking := false }

/-- The reference bus with sensors of these addresses. -/
def busOf (as : List Addr) : RefBus := { sensors := as.map sensor, phase := .idle }

/-- Power-on in an instance with MAX_NUM_DEVICES = 8 and a given environment. -/
def start (e : Env) : State := State.powerOnWith (inst 7) [] e 0

/-- The state after program P1, with a given environment. -/
def afterP1 (e : Env) : State :=
  { start e with slots := tableP1, cur := { la := addrD, ld := 0xFF, done := true, cause := .lastDevice, pass := 4 } }

/-- No prepared answer. -/
def silent : Env := .answers [] [] []

/-- Prepared answers to a RETRIEVE_DATA that reads this scratchpad. -/
def reads (sp : Scratchpad) : Env := .answers [true, true] [] (padBytes sp)

/-- The state a step or a command answers with, if it answers next. -/
def after : Host.Outcome State Fault Refusal → Option State
  | .next t => some t
  | .fault _ => none
  | .refused _ => none

/-- The fault a step ends in, if it does. -/
def faultOf : Host.Outcome State Fault Refusal → Option Fault
  | .next _ => none
  | .fault r => some r
  | .refused _ => none

/-- STATUS, RDATA and RAUX after a command. -/
def results (o : Host.Outcome State Fault Refusal) : Option (BitVec 8 × BitVec 64 × BitVec 32) :=
  (after o).map fun t => (t.status, t.rdata, t.raux)

/-- Slot n after a command. -/
def slotAfter (n : Nat) (o : Host.Outcome State Fault Refusal) : Option Slot := (after o).bind fun t => t.slots[n]?

/-! ## WellFormed: each check refuses an ill-formed term -/

theorem test_wf_getType : (Instr.getType 255).wf = true ∧ (Instr.getType 256).wf = false := by decide
theorem test_wf_getTypeStr : (Instr.getTypeStr 256).wf = false := by decide
theorem test_wf_getAddress : (Instr.getAddress 256).wf = false := by decide
theorem test_wf_getResolution : (Instr.getResolution 256).wf = false := by decide
theorem test_wf_getState : (Instr.getState 256).wf = false := by decide
theorem test_wf_setResolution_slot : (Instr.setResolution 256 9).wf = false := by decide
theorem test_wf_setResolution_bits : (Instr.setResolution 0 256).wf = false ∧ (Instr.setResolution 255 255).wf = true := by decide
theorem test_wf_retrieveData : (Instr.retrieveData 256).wf = false := by decide
theorem test_wf_getCelsius : (Instr.getCelsius 256).wf = false := by decide
theorem test_wf_getFahrenheit : (Instr.getFahrenheit 256).wf = false := by decide

/-! ## Decode: every row's word written out (V-ENC-1 to V-ENC-15), and the illegal words (V-ENC-16 to V-ENC-21) -/

theorem test_dec_resetSearch : decode 0x00000001 = .ok .resetSearch := by decide
theorem test_dec_search : decode 0x00000002 = .ok .search := by decide
theorem test_dec_getCursor : decode 0x00000003 = .ok .getCursor := by decide
theorem test_dec_clearTable : decode 0x00000008 = .ok .clearTable := by decide
theorem test_dec_getSlotCount : decode 0x00000009 = .ok .getSlotCount := by decide
theorem test_dec_getType : decode 0x00000310 = .ok (.getType 3) := by decide
theorem test_dec_getTypeStr : decode 0x00000011 = .ok (.getTypeStr 0) := by decide
theorem test_dec_getAddress : decode 0x00000212 = .ok (.getAddress 2) := by decide
theorem test_dec_getResolution : decode 0x00000113 = .ok (.getResolution 1) := by decide
theorem test_dec_getState : decode 0x00000114 = .ok (.getState 1) := by decide
theorem test_dec_setResolution : decode 0x000A0120 = .ok (.setResolution 1 10) := by decide
theorem test_dec_setResolution_13 : decode 0x000D0220 = .ok (.setResolution 2 13) := by decide
theorem test_dec_retrieveData : decode 0x0000FF21 = .ok (.retrieveData 255) := by decide
theorem test_dec_getCelsius : decode 0x00000030 = .ok (.getCelsius 0) := by decide
theorem test_dec_getFahrenheit : decode 0x00000331 = .ok (.getFahrenheit 3) := by decide
theorem test_dec_illegal_op0 : decode 0x00000000 = .error .unassignedOp := by decide
theorem test_dec_illegal_op4 : decode 0x00000004 = .error .unassignedOp := by decide
theorem test_dec_illegal_slot : decode 0x00000102 = .error .slotNonzero := by decide
theorem test_dec_illegal_rsvd : decode 0x01000002 = .error .reservedNonzero := by decide
theorem test_dec_illegal_arg : decode 0x00010010 = .error .argNonzero := by decide
theorem test_dec_illegal_rsvd_bits : decode 0x800A0120 = .error .reservedNonzero := by decide
theorem test_enc_setResolution : encode (.setResolution 1 10) = 0x000A0120 := by decide
theorem test_decodeTableWord : decodeTableWord 32 0x000A0120 = some (.setResolution 1 10) := by decide

/-- 30_encoding.md R64: hexadecimal operands, and an operand out of range. -/
theorem test_assemble_hex : assemble "SET_RESOLUTION 0x1, 0xA".toList = .command 0x000A0120 ∧
    assemble "SET_RESOLUTION 1 10".toList = .rejected := by decide

/-! ## Pure functions -/

/-- V-CRC-2 to V-CRC-5. -/
theorem test_addrValid : addrValid (inst 7) addrB = true ∧ addrValid (inst 7) addrS = true ∧ addrValid (inst 7) addrB2 = true ∧
    addrValid (inst 7) addrX = false ∧ addrValid (inst 7) addrD = true := by decide
/-- V-CRC-6, V-CRC-8. -/
theorem test_addrValid_silent : addrValid (inst 7) 0 = true ∧ addrValid (inst 7) 0xFFFFFFFFFFFFFFFF = false := by decide
/-- V-SP-1, V-SP-2, V-SP-3. -/
theorem test_scratchpadOk :
    scratchpadOk (inst 7) ⟨0x50, 0x05, 0x4B, 0x46, 0x7F, 0xFF, 0x0C, 0x10, 0x1C⟩ = true ∧
    scratchpadOk (inst 7) ⟨0x50, 0x05, 0x4B, 0x46, 0x7F, 0xFF, 0x0C, 0x10, 0x1D⟩ = false ∧
    scratchpadOk (inst 7) ⟨0, 0, 0, 0, 0, 0, 0, 0, 0⟩ = false := by decide
/-- V-B20-2 to V-B20-5. -/
theorem test_b20_masks : decodeB20 .r12 0x0191 = 401 ∧ decodeB20 .r11 0x0191 = 400 ∧ decodeB20 .r10 0x0191 = 400 ∧
    decodeB20 .r9 0x0191 = 400 := by decide
/-- V-B20-8 to V-B20-11, V-B20-17, V-B20-19. -/
theorem test_b20_negative : decodeB20 .r12 0xFF5E = -162 ∧ decodeB20 .r11 0xFF5E = -162 ∧ decodeB20 .r10 0xFF5E = -164 ∧
    decodeB20 .r9 0xFF5E = -168 ∧ decodeB20 .r12 0x0800 = -2048 ∧ decodeB20 .r12 0x8550 = 1360 := by decide
/-- V-S20-5, V-S20-9, V-S20-10, V-S20-12, V-S20-15. -/
theorem test_s20 :
    decodeS20 .vendor67 0xFFFF ⟨0xFF, 0xFF, 0x4B, 0x46, 0xFF, 0xFF, 0x0C, 0x10, 0xCA⟩ = some (-16) ∧
    decodeS20 .vendor67 0xFF00 ⟨0x00, 0xFF, 0x4B, 0x46, 0xFF, 0xFF, 0x10, 0x10, 0xB6⟩ = some (-2052) ∧
    decodeS20 .vendor67 0x0019 ⟨0x19, 0x00, 0x4B, 0x46, 0xFF, 0xFF, 0x04, 0x00, 0xC7⟩ = none ∧
    decodeS20 .vendor67 0x0019 ⟨0x19, 0x00, 0x4B, 0x46, 0xFF, 0xFF, 0x01, 0x03, 0xDA⟩ = some 198 ∧
    decodeS20 .vendor67 0x0119 ⟨0x19, 0x01, 0x4B, 0x46, 0xFF, 0xFF, 0x04, 0x10, 0x67⟩ = some (-1848) := by decide
/-- V-S20-16, both layouts. -/
theorem test_s20_layouts :
    decodeS20 .doc56 0x0019 ⟨0x19, 0x00, 0x4B, 0x46, 0xFF, 0x04, 0x10, 0xFF, 0x69⟩ = some 200 ∧
    decodeS20 .vendor67 0x0019 ⟨0x19, 0x00, 0x4B, 0x46, 0xFF, 0x04, 0x10, 0xFF, 0x69⟩ = some 202 := by decide
/-- V-F-3, V-F-5. -/
theorem test_fahrenheit : fahrenheit80 (-880) = -5360 ∧ fahrenheit80 (-1) = 2551 := by decide

/-! ## Commands: one step each -/

/-- 40_enumeration.md R66, on the state after P1. -/
theorem test_resetSearch : (after (exec .resetSearch (afterP1 silent))).map (fun t => (t.cur, t.slots)) =
    some (Cursor.initial, tableP1) := by decide

/-- V-SRCH-1, one device on the reference bus. -/
theorem test_search_single : (after (exec .search (start (.reference (busOf [addrB]))))).map
      (fun t => (t.rdata, t.cur, t.slots, t.trace.length)) =
    some (addrB, { la := addrB, ld := 0xFF, done := true, cause := .lastDevice, pass := 1 }, [freshSlot addrB .ds18b20], 194) := by
  decide

/-- V-SRCH-6, the second SEARCH of P1: LD goes from 3 to 8 and B2 is yielded. -/
theorem test_search_branch : (after (exec .search
      { start (.reference (busOf [addrS, addrB, addrB2, addrD])) with
        cur := { la := addrS, ld := 3, done := false, cause := .notOver, pass := 1 },
        slots := [freshSlot addrS .ds18s20] })).map (fun t => (t.rdata, t.raux, t.cur)) =
    some (addrB2, 1, { la := addrB2, ld := 8, done := false, cause := .notOver, pass := 2 }) := by decide

/-- P1 step 13. -/
theorem test_getCursor : results (exec .getCursor (afterP1 silent)) = some (0x00, addrD, 0x000403FF) := by decide

/-- 41_device.md R85. -/
theorem test_clearTable : (after (exec .clearTable (afterP1 silent))).map (fun t => (t.tblCount, t.cur.pass, t.cur.la)) =
    some (0, 4, addrD) := by decide

/-- P1 step 7. -/
theorem test_getSlotCount : results (exec .getSlotCount (afterP1 silent)) = some (0x00, 4, 8) := by decide

/-- P1 steps 8, 11, 12. -/
theorem test_getType : results (exec (.getType 0) (afterP1 silent)) = some (0x00, 1, 0) ∧
    results (exec (.getType 3) (afterP1 silent)) = some (0x00, 3, 0) ∧
    results (exec (.getType 4) (afterP1 silent)) = some (0x07, 0, 0) := by decide

/-- V-DEV-1, V-DEV-2. -/
theorem test_getTypeStr : results (exec (.getTypeStr 0) (afterP1 silent)) = some (0x00, 0x0030325338315344, 7) ∧
    results (exec (.getTypeStr 3) (afterP1 silent)) = some (0x00, 0x0000323238315344, 6) := by decide

/-- V-DEV-13, the UNKNOWN name. -/
theorem test_getTypeStr_unknown :
    results (exec (.getTypeStr 0) { start silent with slots := [freshSlot 0 .unknown] }) =
      some (0x00, 0x004E574F4E4B4E55, 7) := by decide

/-- 41_device.md R89, on the table after P1. -/
theorem test_getAddress : results (exec (.getAddress 2) (afterP1 silent)) = some (0x00, 0xFE0416916A4BFF28, 0) := by decide

/-- V-DEV-7, its second command. -/
theorem test_getResolution : results (exec (.getResolution 0) (afterP1 silent)) = some (0x00, 12, 0) := by decide

/-- 41_device.md R91, on a READY slot with a temperature. -/
theorem test_getState : results (exec (.getState 0)
    { start silent with slots := [{ freshSlot addrS .ds18s20 with state := .ready, temp := 200, tvalid := true }] }) =
      some (0x00, 3, 1) := by decide

/-- V-DEV-4: the slot, and the last byte sent. -/
theorem test_setResolution : (after (exec (.setResolution 2 10) (afterP1 (.answers [true] [] [])))).map
      (fun t => (t.status, t.slots[2]?, t.trace.length, t.trace.getLast?)) =
    some (0x00, some { freshSlot addrB .ds18b20 with res := .r10, state := .configured }, 14, some (.writeByte 0x3F)) := by decide

/-- V-DEV-8, V-DEV-9, V-DEV-10, V-DEV-13. -/
theorem test_setResolution_errors : results (exec (.setResolution 2 13) (afterP1 silent)) = some (0x04, 0, 0) ∧
    results (exec (.setResolution 0 8) (afterP1 silent)) = some (0x04, 0, 0) ∧
    results (exec (.setResolution 4 10) (afterP1 silent)) = some (0x07, 0, 0) ∧
    results (exec (.setResolution 0 10) { start silent with slots := [freshSlot 0 .unknown] }) = some (0x05, 0, 0) := by decide

/-- V-S20-4 through RETRIEVE_DATA: −404, sign-extended in RDATA. -/
theorem test_retrieveData : (after (exec (.retrieveData 0)
      (afterP1 (reads ⟨0xCE, 0xFF, 0x4B, 0x46, 0xFF, 0xFF, 0x10, 0x10, 0xD4⟩)))).map
      (fun t => (t.status, t.rdata, t.slots[0]?, t.trace.length, t.trace[10]?)) =
    some (0x00, 0xFFFFFFFFFFFFFE6C, some { freshSlot addrS .ds18s20 with state := .ready, temp := 0xFE6C, tvalid := true }, 32,
      some (.writeByte 0x44)) := by decide

/-- V-SP-2: the temperature and TVALID stay, the slot is READY. -/
theorem test_retrieveData_badPad : (after (exec (.retrieveData 2)
      (afterP1 (reads ⟨0x50, 0x05, 0x4B, 0x46, 0x7F, 0xFF, 0x0C, 0x10, 0x1D⟩)))).map (fun t => (t.status, t.slots[2]?, t.trace[11]?)) =
    some (0x02, some { freshSlot addrB .ds18b20 with state := .ready }, some (.delay 750)) := by decide

/-- 41_device.md R101, at 9 bits. -/
theorem test_retrieveData_wait : (after (exec (.retrieveData 0)
      { start (reads ⟨0x50, 0x05, 0x4B, 0x46, 0x7F, 0xFF, 0x0C, 0x10, 0x1C⟩) with
        slots := [{ freshSlot addrB .ds18b20 with res := .r9 }] })).map (fun t => t.trace[11]?) =
    some (some (.delay 94)) := by decide

/-- V-DEV-11, and a negative temperature. -/
theorem test_getCelsius : results (exec (.getCelsius 1) (afterP1 silent)) = some (0x00, 0, 0) ∧
    results (exec (.getCelsius 0) { start silent with slots := [{ freshSlot addrS .ds18s20 with temp := 0xFE6C, tvalid := true }] }) =
      some (0x00, 0xFFFFFFFFFFFFFE6C, 1) := by decide

/-- V-DEV-12, V-F-3. -/
theorem test_getFahrenheit : results (exec (.getFahrenheit 1) (afterP1 silent)) = some (0x00, 2560, 0) ∧
    results (exec (.getFahrenheit 0)
      { start silent with slots := [{ freshSlot addrB .ds18b20 with temp := 0xFC90, tvalid := true }] }) =
      some (0x00, 0xFFFFFFFFFFFFEB10, 1) := by decide

/-- V-ENC-18 as a step. -/
theorem test_step_illegal : results (step ((afterP1 silent).withFetchWord 32 0x00000102)) = some (0x08, 0, 0) := by decide

/-- The step after withFetchWord runs that word. -/
theorem test_step_fetch : results (step ((afterP1 silent).withFetchWord 32 0x00000009)) = some (0x00, 4, 8) := by decide

/-- V-DEV-14: B removed from the bus. -/
theorem test_missing_sensor : (after (exec (.retrieveData 2) (afterP1 (.reference (busOf [addrS, addrB2, addrD]))))).map
      (fun t => (t.status, t.slots[2]?)) = some (0x02, some { freshSlot addrB .ds18b20 with state := .ready }) := by decide

/-! ## Witnesses of the statements' hypotheses -/

/-- Every address bit and its complement, as a lone device answers. -/
def lone (a : Addr) (i : Nat) : Bool := a.getLsbD i
def loneNot (a : Addr) (i : Nat) : Bool := !a.getLsbD i

/-- Every bit a conflict. -/
def low (_ : Nat) : Bool := false

/-- Prepared answers to SEARCH from these bit functions. -/
def answering (b cb : Nat → Bool) (n : Nat) : Env := .answers [true] (searchAnswers b cb n) []

theorem witness_powerOnInput : ({ afterP1 silent with inputs := [.powerOn] } : State).inputs = .powerOn :: [] := by decide

/-- The invariant holds of a state with devices, a temperature and a pass under way; its step answers next. -/
def busyState : State :=
  { start silent with
    cur := { la := addrS, ld := 3, done := false, cause := .notOver, pass := 1 },
    slots := [{ freshSlot addrS .ds18s20 with state := .ready, temp := 0xFE6C, tvalid := true }],
    inputs := [.command 0x00000130] }

theorem witness_stepKeepsInvariant : busyState.Inv ∧ (after (step busyState)).isSome = true := by decide
theorem witness_stepKeepsInvariant_passOver : (afterP1 silent).Inv ∧ (after (step (afterP1 silent))).isSome = true := by decide
theorem witness_stepRuns : busyState.inputs = .command 0x00000130 :: [] ∧ decode 0x00000130 = .ok (.getCelsius 1) :=
  ⟨rfl, by decide⟩
theorem witness_illegalWord : ∀ row ∈ opcodeRows, (0x01000002 : Word) &&& row.2 ≠ row.1 := by simp [opcodeRows]
theorem witness_illegalWord_input :
    ({ start silent with inputs := [.command 0x01000002] } : State).inputs = .command 0x01000002 :: [] := by decide
theorem witness_input_none : (start silent).inputs = [] := by decide
theorem witness_input_environment :
    ({ start silent with inputs := [.environment (.reference (busOf [addrB]))] } : State).inputs =
      .environment (.reference (busOf [addrB])) :: [] := rfl
theorem witness_input_others :
    ({ start silent with inputs := [.powerOnDuring 0x00000002] } : State).inputs = .powerOnDuring 0x00000002 :: [] ∧
    ({ start silent with inputs := [.commandDuring 0x00000002 0x00000003] } : State).inputs =
      .commandDuring 0x00000002 0x00000003 :: [] ∧
    ({ start silent with inputs := [.outOfScope .alarmSearch] } : State).inputs = .outOfScope .alarmSearch :: [] := by decide

/-- A command that makes one call: the stall after 0 calls is met, the stall after 1 call is not. -/
def noPresence (ins : List Input) : State := { start (.answers [false] [] []) with inputs := ins }
theorem witness_input_stall :
    (after (runWord 0x00000002 { noPresence [.commandStalls 0x00000002 0] with inputs := [] })).map (fun t => t.trace.length) = some 1 ∧
    faultOf (step (noPresence [.commandStalls 0x00000002 0])) = some .primitiveNeverReturned ∧
    (after (step (noPresence [.commandStalls 0x00000002 1]))).isSome = true := by decide

theorem witness_decodeOfEncode : (Instr.setResolution 255 255).wf = true ∧ Instr.search.wf = true := by decide
theorem witness_encodeOfDecode : decode 0x00FFFF20 = .ok (.setResolution 255 255) := by decide

theorem witness_search_over : (afterP1 silent).cur.done = true := by decide
/-- Both a table that is full and one of the smallest size. -/
theorem witness_search_full :
    let s := { State.powerOnWith (inst 0) [] silent 0 with slots := [freshSlot addrS .ds18s20] }
    s.cur.done = false ∧ s.slots.length = s.params.lastSlot.val + 1 := by decide
theorem witness_search_noPresence : (noPresence []).cur.done = false ∧
    (noPresence []).slots.length ≠ (noPresence []).params.lastSlot.val + 1 ∧ (noPresence []).env = .answers (false :: []) [] [] := by
  decide

/-- A lone device: no conflict at all. -/
theorem witness_search_lone :
    let s := start (answering (lone addrB) (loneNot addrB) 64)
    s.cur.done = false ∧ s.slots.length ≠ s.params.lastSlot.val + 1 ∧
    s.env = .answers (true :: []) (searchAnswers (lone addrB) (loneNot addrB) 64 ++ []) [] ∧
    (∀ i < 64, ¬(lone addrB i = true ∧ loneNot addrB i = true)) ∧
    (∀ i < 64, addrB.getLsbD i = direction s.cur.la s.cur.ld.toInt (lone addrB i) (loneNot addrB i) i) ∧
    IsLastZeroConflict (lone addrB) (loneNot addrB) addrB 0xFF ∧ addrValid s.params addrB = true := by
  refine ⟨rfl, by decide, by simp [start, answering, State.powerOnWith], by decide, by decide, .inl ⟨rfl, by decide⟩, by decide⟩

/-- A bus held low (V-SRCH-4): a conflict at every bit, the last at bit 63. -/
theorem witness_search_low :
    let s := start (answering low low 64)
    s.cur.done = false ∧ s.slots.length ≠ s.params.lastSlot.val + 1 ∧
    s.env = .answers (true :: []) (searchAnswers low low 64 ++ []) [] ∧
    (∀ i < 64, ¬(low i = true ∧ low i = true)) ∧
    (∀ i < 64, (0 : Addr).getLsbD i = direction s.cur.la s.cur.ld.toInt (low i) (low i) i) ∧
    IsLastZeroConflict low low 0 0x3F ∧ addrValid s.params 0 = true := by
  refine ⟨rfl, by decide, by simp [start, answering, State.powerOnWith], by decide, by decide,
    .inr ⟨63, by decide, rfl, by decide, by decide⟩, by decide⟩

/-- A (1, 1) pair at the lowest bit (V-SRCH-3) and one at the highest. -/
theorem witness_search_noResponse :
    let s := start (answering (fun _ => true) (fun _ => true) 1)
    s.cur.done = false ∧ s.slots.length ≠ s.params.lastSlot.val + 1 ∧ 0 < 64 ∧
    s.env = .answers (true :: []) (searchAnswers (fun _ => true) (fun _ => true) (0 + 1) ++ []) [] ∧
    (∀ i < 0, ¬((fun _ : Nat => true) i = true ∧ (fun _ : Nat => true) i = true)) := by
  refine ⟨rfl, by decide, by decide, by simp [start, answering, State.powerOnWith], by simp⟩
theorem witness_search_noResponse_last :
    let b := fun i : Nat => decide (i = 63)
    let s := start (answering b b 64)
    s.cur.done = false ∧ s.slots.length ≠ s.params.lastSlot.val + 1 ∧ 63 < 64 ∧
    s.env = .answers (true :: []) (searchAnswers b b (63 + 1) ++ []) [] ∧
    (∀ i < 63, ¬(b i = true ∧ b i = true)) ∧ b 63 = true := by
  refine ⟨rfl, by decide, by decide, by simp [start, answering, State.powerOnWith], by decide, by decide⟩

/-- The second SEARCH of V-SRCH-4: bit 63 takes 1, and the address fails its CRC. -/
theorem witness_search_badCrc :
    let s := { start (answering low low 64) with cur := { la := 0, ld := 0x3F, done := false, cause := .notOver, pass := 1 } }
    s.cur.done = false ∧ s.slots.length ≠ s.params.lastSlot.val + 1 ∧
    s.env = .answers (true :: []) (searchAnswers low low 64 ++ []) [] ∧
    (∀ i < 64, ¬(low i = true ∧ low i = true)) ∧
    (∀ i < 64, (0x8000000000000000 : Addr).getLsbD i = direction s.cur.la s.cur.ld.toInt (low i) (low i) i) ∧
    addrValid s.params 0x8000000000000000 = false := by
  refine ⟨rfl, by decide, by simp [start, answering, State.powerOnWith], by decide, by decide, by decide⟩

/-- SEARCH that reaches the bus: on the reference bus, and on a bus of which nothing is known. -/
theorem witness_search_bus :
    (start (.reference (busOf [addrS]))).cur.done = false ∧
    (start (.reference (busOf [addrS]))).slots.length ≠ (start (.reference (busOf [addrS]))).params.lastSlot.val + 1 ∧
    (start silent).cur.done = false ∧ (start silent).slots.length ≠ (start silent).params.lastSlot.val + 1 := by decide
theorem witness_search_heldLow :
    let s := start (.answers [true] (List.replicate 128 false) [])
    s.cur.done = false ∧ s.cur.ld.toInt = -1 ∧ s.slots.length ≠ s.params.lastSlot.val + 1 ∧ s.params.crc = .dallasMaxim ∧
    s.env = .answers (true :: []) (List.replicate 128 false ++ []) [] := by
  refine ⟨rfl, by decide, by decide, rfl, by simp [start, State.powerOnWith]⟩

/-- Commands that answer next with bus calls and a Delay, and without any; each leaves the cursor alone. -/
theorem witness_execNext : (after (exec (.retrieveData 0) (afterP1 silent))).isSome = true ∧
    (after (exec (.setResolution 2 9) (afterP1 silent))).isSome = true ∧
    (after (exec .search (noPresence []))).isSome = true ∧ (after (exec .clearTable (afterP1 silent))).isSome = true ∧
    writesCursor (.retrieveData 0) = false ∧ writesCursor (.setResolution 2 9) = false ∧ writesCursor .clearTable = false := by decide

/-- Program P5, steps 9 to 11, with one slot: the pass has filled the table, CLEAR_TABLE empties it, and SEARCH goes on with the
pass. -/
def fullInPass : State :=
  { State.powerOnWith (inst 0) [] (.reference (busOf [addrS, addrB])) 0 with
    cur := { la := addrS, ld := 3, done := false, cause := .notOver, pass := 1 }, slots := [freshSlot addrS .ds18s20] }
theorem witness_passCount :
    fullInPass.Inv ∧ fullInPass.cur.pass.toNat = fullInPass.maxNumDevices ∧ fullInPass.tblCount = fullInPass.maxNumDevices ∧
    ((after (exec .clearTable fullInPass)).bind fun u => after (exec .search u)).map
      (fun t => (t.status, t.rdata, t.cur.pass, t.tblCount)) = some (0x00, addrB, 2, 1) := by decide
/-- Commands that keep CUR.PASS ≤ TBL.COUNT: one that raises both, and one that changes neither. -/
theorem witness_passCount_kept :
    let s := start (.reference (busOf [addrB]))
    s.cur.pass.toNat ≤ s.tblCount ∧ (after (exec .search s)).map (fun t => (t.cur.pass.toNat, t.tblCount)) = some (1, 1) ∧
    (after (exec .getCursor s)).isSome = true := by decide

theorem witness_enumeration_empty :
    (start (.reference (busOf []))).env = .reference (busOf []) ∧ (busOf []).sensors = [] ∧
    (start (.reference (busOf []))).tblCount < (start (.reference (busOf []))).maxNumDevices := by decide
/-- The bus of program P1, and the largest number of devices that fits the table. -/
theorem witness_enumeration :
    let bus := busOf [addrS, addrB, addrB2, addrD]
    let s := State.powerOnWith (inst 3) [] (.reference bus) 0
    s.env = .reference bus ∧ bus.sensors ≠ [] ∧ (bus.sensors.map (·.addr)).Nodup ∧
    s.tblCount + bus.sensors.length ≤ s.maxNumDevices ∧ (∀ d ∈ bus.sensors, addrValid s.params d.addr = true) := by decide
theorem witness_enumeration_invalid :
    let bus := busOf [addrS, addrX, addrD]
    let s := start (.reference bus)
    s.env = .reference bus ∧ (bus.sensors.map (·.addr)).Nodup ∧ s.tblCount + bus.sensors.length ≤ s.maxNumDevices ∧
    (∃ d ∈ bus.sensors, addrValid s.params d.addr = false) := by decide

/-- An occupied slot of each type, for the accessors and the temperature outputs. -/
theorem witness_slots : (afterP1 silent).slots[0]? = some (freshSlot addrS .ds18s20) ∧
    (afterP1 silent).slots[1]? = some (freshSlot addrB2 .ds18b20) ∧ (afterP1 silent).slots[3]? = some (freshSlot addrD .ds1822) ∧
    ({ start silent with slots := [freshSlot 0 .unknown] } : State).slots[0]? = some (freshSlot 0 .unknown) := by decide
/-- The first free slot, and one in a full table of 256. -/
theorem witness_freeSlot : slotOperand (.getType 4) = some 4 ∧ (afterP1 silent).slots.length ≤ 4 ∧
    slotOperand (.retrieveData 255) = some 255 ∧ (afterP1 silent).slots.length ≤ 255 := by decide
/-- SET_RESOLUTION at both ends of the range, on the two families that take it. -/
theorem witness_setResolution : (afterP1 silent).slots[2]? = some (freshSlot addrB .ds18b20) ∧
    (freshSlot addrB .ds18b20).type = .ds18b20 ∧ (afterP1 silent).slots[3]? = some (freshSlot addrD .ds1822) ∧
    (freshSlot addrD .ds1822).type = .ds1822 ∧ (9 = 9 ∧ Resolution.r9 = .r9) ∧ (12 = 12 ∧ Resolution.r12 = .r12) ∧
    9 ≤ 9 ∧ 12 ≤ 12 := by decide
/-- Just outside the range, on both sides, and the other families inside it. -/
theorem witness_setResolution_other : (8 < 9 ∨ 12 < 8) ∧ (13 < 9 ∨ 12 < 13) ∧ (freshSlot addrS .ds18s20).type = .ds18s20 ∧
    (freshSlot 0 .unknown).type = .unknown ∧ 9 ≤ 12 ∧ 12 ≤ 12 := by decide
theorem witness_setResolution_reference :
    (afterP1 (.reference (busOf [addrB]))).env = .reference (busOf [addrB]) ∧
    (afterP1 (.reference (busOf [addrB]))).slots[2]? = some (freshSlot addrB .ds18b20) := by decide

/-- RETRIEVE_DATA with a scratchpad that decodes (V-S20-4), one that fails its check (V-SP-2), and one that does not decode
(V-S20-10). -/
theorem witness_retrieve_ok :
    let sp : Scratchpad := ⟨0xCE, 0xFF, 0x4B, 0x46, 0xFF, 0xFF, 0x10, 0x10, 0xD4⟩
    (afterP1 (reads sp)).slots[0]? = some (freshSlot addrS .ds18s20) ∧ (freshSlot addrS .ds18s20).type ≠ .unknown ∧
    (afterP1 (reads sp)).env = .answers (true :: true :: []) [] (padBytes sp ++ []) ∧ scratchpadOk (inst 7) sp = true ∧
    decodeTemp (inst 7) .ds18s20 .r12 sp = some (-404) := by decide
theorem witness_retrieve_badPad :
    let sp : Scratchpad := ⟨0x50, 0x05, 0x4B, 0x46, 0x7F, 0xFF, 0x0C, 0x10, 0x1D⟩
    (afterP1 (reads sp)).slots[2]? = some (freshSlot addrB .ds18b20) ∧ (freshSlot addrB .ds18b20).type ≠ .unknown ∧
    (afterP1 (reads sp)).env = .answers (true :: true :: []) [] (padBytes sp ++ []) ∧ scratchpadOk (inst 7) sp = false := by decide
theorem witness_retrieve_noDecode :
    let sp : Scratchpad := ⟨0x19, 0x00, 0x4B, 0x46, 0xFF, 0xFF, 0x04, 0x00, 0xC7⟩
    (afterP1 (reads sp)).slots[0]? = some (freshSlot addrS .ds18s20) ∧ (freshSlot addrS .ds18s20).type = .ds18s20 ∧
    (afterP1 (reads sp)).env = .answers (true :: true :: []) [] (padBytes sp ++ []) ∧ scratchpadOk (inst 7) sp = true ∧
    (inst 7).layout = .vendor67 ∧ sp.b7 = 0 := by decide
/-- The same under the other layout, with the byte 8 that the CRC asks for. -/
theorem witness_retrieve_noDecode_doc :
    let sp : Scratchpad :=
      ⟨0x19, 0x00, 0x4B, 0x46, 0xFF, 0x04, 0x00, 0x10, dallasCrc8 [0x19, 0x00, 0x4B, 0x46, 0xFF, 0x04, 0x00, 0x10]⟩
    let s := { afterP1 (reads sp) with params := { inst 7 with layout := .doc56 } }
    s.slots[0]? = some (freshSlot addrS .ds18s20) ∧ (freshSlot addrS .ds18s20).type = .ds18s20 ∧
    s.env = .answers (true :: true :: []) [] (padBytes sp ++ []) ∧ scratchpadOk s.params sp = true ∧
    s.params.layout = .doc56 ∧ sp.b6 = 0 := by decide
theorem witness_retrieve_missing :
    let bus := busOf [addrS, addrB2, addrD]
    (afterP1 (.reference bus)).slots[2]? = some (freshSlot addrB .ds18b20) ∧ (freshSlot addrB .ds18b20).type ≠ .unknown ∧
    (afterP1 (.reference bus)).env = .reference bus ∧ (∀ d ∈ bus.sensors, d.addr ≠ (freshSlot addrB .ds18b20).addr) ∧
    (afterP1 (.reference bus)).params.crc = .dallasMaxim := by decide

/-- The decode statements: both layouts, a COUNT_PER_C of 0 and one that is not, each family code and one of none. -/
theorem witness_s20 :
    let sp : Scratchpad := ⟨0x19, 0x00, 0x4B, 0x46, 0xFF, 0x04, 0x10, 0x00, 0x69⟩
    ((0x10 : Byte) = sp.b6 ∧ (0x00 : Byte) = sp.b7) ∧ ((0x04 : Byte) = sp.b5 ∧ (0x10 : Byte) = sp.b6) ∧ (0x10 : Byte) ≠ 0 := by decide
theorem witness_classify : classify 0x10 = .ds18s20 ∧ classify 0x28 = .ds18b20 ∧ classify 0x22 = .ds1822 ∧
    (0x00 : Byte) ≠ 0x10 ∧ (0x00 : Byte) ≠ 0x28 ∧ (0x00 : Byte) ≠ 0x22 ∧ classify 0x00 = .unknown := by decide
theorem witness_scratchpadCheck : (inst 7).crc = .dallasMaxim ∧
    scratchpadOk (inst 7) ⟨0xFF, 0xFF, 0xFF, 0xFF, 0xFF, 0xFF, 0xFF, 0xFF, 0xFF⟩ = false := by decide

/-- Fields that do change: RES and STATE by SET_RESOLUTION, TEMP and TVALID by RETRIEVE_DATA, TBL.COUNT by CLEAR_TABLE. -/
theorem witness_slotFields :
    slotAfter 2 (exec (.setResolution 2 9) (afterP1 silent)) =
      some { freshSlot addrB .ds18b20 with res := .r9, state := .configured } ∧
    slotAfter 0 (exec (.retrieveData 0) (afterP1 (reads ⟨0xCE, 0xFF, 0x4B, 0x46, 0xFF, 0xFF, 0x10, 0x10, 0xD4⟩))) =
      some { freshSlot addrS .ds18s20 with temp := 0xFE6C, tvalid := true, state := .ready } ∧
    (after (exec .clearTable (afterP1 silent))).map (fun t => t.tblCount) = some 0 := by decide

end Sys2Proof.Tests
end

section
/-! PROOFS. What each kind of input makes of a step (00_scope.md R7, R9), what no command changes (R10), and how every command
ends (R15, 60_exceptions.md R123). -/

namespace Sys2Proof.Machine

/-! ## Steps, by the next input -/

/-- With no input the step changes nothing (log 2). -/
theorem step_of_inputs_nil {s : State} (h : s.inputs = []) : step s = .next s := by
  simp [step, nextInput, h]

/-- A step takes the next input off the list (log 1). -/
theorem step_of_inputs_cons {s : State} {inp : Input} {rest : List Input} (h : s.inputs = inp :: rest) :
    step s = takeInput inp { s with inputs := rest } := by
  simp [step, nextInput, h]

/-- A call that never returns, in a command that would answer the next state `t` (60_exceptions.md R128; log 12). -/
theorem takeInput_commandStalls {s t : State} {w : Word} (k : Nat) (h : runWord w s = .next t) :
    takeInput (.commandStalls w k) s =
      if k < t.trace.length then .fault .primitiveNeverReturned else .next t := by
  simp only [takeInput, h, stalled]

/-- Settles O7: each clause is the step on its own kind of input. -/
theorem inputsWithoutACommandStep : Obligations.InputsWithoutACommandStep := by
  intro s rest
  refine ⟨step_of_inputs_nil, ?powerOnDuring, ?commandDuring, ?outOfScope, ?environment, ?commandStalls⟩
  case powerOnDuring => exact fun _ h => step_of_inputs_cons h
  case commandDuring => exact fun _ _ h => step_of_inputs_cons h
  case outOfScope => exact fun _ h => step_of_inputs_cons h
  case environment => exact fun _ h => step_of_inputs_cons h
  case commandStalls => exact fun _ k _ h hr => (step_of_inputs_cons h).trans (takeInput_commandStalls k hr)

/-! ## What no command changes, and how a command ends -/

/-- The parameters, CMD and the inputs to come are the same in both states. -/
structure CommandFrame (s t : State) : Prop where
  params : t.params = s.params
  cmd : t.cmd = s.cmd
  inputs : t.inputs = s.inputs

theorem CommandFrame.trans {s t u : State} (h : CommandFrame s t) (g : CommandFrame t u) : CommandFrame s u :=
  ⟨g.params.trans h.params, g.cmd.trans h.cmd, g.inputs.trans h.inputs⟩

/-- What leaves the block alone leaves the parameters, CMD and the inputs alone. -/
theorem SameBlock.commandFrame {s t : State} (h : SameBlock s t) : CommandFrame s t := ⟨h.params, h.cmd, h.inputs⟩

theorem beginCommand_commandFrame (s : State) : CommandFrame s (beginCommand s) := ⟨rfl, rfl, rfl⟩

theorem updateSlot_commandFrame (n : Nat) (f : Slot → Slot) (s : State) : CommandFrame s (updateSlot n f s) := ⟨rfl, rfl, rfl⟩

/-- `t` is the end of a command that began in `s`: one of the statuses `codes`, results of 0 on a failure (00_scope.md R15), and the
frame that every command keeps. -/
structure CommandEnd (codes : List Nat) (s t : State) : Prop where
  frame : CommandFrame s t
  status : t.status.toNat ∈ codes
  zeroOnFailure : t.status ≠ 0x00 → t.rdata = 0 ∧ t.raux = 0

/-- An end with OK may leave any results. -/
theorem finish_ok_commandEnd {codes : List Nat} {s u : State} (hu : CommandFrame s u) (d : BitVec 64) (x : BitVec 32)
    (hc : 0x00 ∈ codes) : CommandEnd codes s (finish .ok d x u) :=
  ⟨hu.trans ⟨rfl, rfl, rfl⟩, hc, fun h => absurd rfl h⟩

/-- `raise` leaves results of 0 (00_scope.md R15). -/
theorem raise_commandEnd {codes : List Nat} {s u : State} {c : Status} (hu : CommandFrame s u)
    (hc : (statusCode c).toNat ∈ codes) : CommandEnd codes s (raise c u) :=
  ⟨hu.trans ⟨rfl, rfl, rfl⟩, hc, fun _ => ⟨rfl, rfl⟩⟩

/-- `fail(c)` of SEARCH ends NO_DEVICE (40_enumeration.md R76). -/
theorem searchFail_commandEnd {s u : State} (hu : CommandFrame s u) (c : PassCause) :
    CommandEnd (statusesOf .search) s (searchFail c u) :=
  raise_commandEnd (hu.trans ⟨rfl, rfl, rfl⟩) (by decide)

/-- `commit` of SEARCH ends OK (40_enumeration.md R77). -/
theorem searchCommit_commandEnd {s u : State} (hu : CommandFrame s u) (q : SearchSeq) :
    CommandEnd (statusesOf .search) s (searchCommit q u) := by
  refine finish_ok_commandEnd (hu.trans ?_) _ _ (.head _)
  exact ⟨rfl, rfl, rfl⟩

theorem execSearch_commandEnd {s t : State} (h : execSearch s = .next t) : CommandEnd (statusesOf .search) s t := by
  have hb := beginCommand_commandFrame s
  rcases execSearch_cases h with rfl | rfl | ⟨-, -, rfl⟩
  · exact raise_commandEnd hb (by decide)
  · exact raise_commandEnd hb (by decide)
  · rcases searchBus_cases (beginCommand s) with ⟨c, u, -, hu, he⟩ | ⟨q, u, hu, -, -, -, he⟩
    · rw [he]
      exact searchFail_commandEnd (hb.trans hu.commandFrame) c
    · rw [he]
      exact searchCommit_commandEnd (hb.trans hu.commandFrame) q

/-- A command that only reads its slot ends BAD_SLOT or OK: the five accessors and the two temperature outputs
(60_exceptions.md R122, R123). -/
theorem checkSlot_finish_commandEnd {n : Nat} {s t : State} {d : Slot → BitVec 64} {x : Slot → BitVec 32}
    (h : (.next (checkSlot n (beginCommand s) fun sl => finish .ok (d sl) (x sl)) : Host.Outcome State Fault Refusal) = .next t) :
    CommandEnd [0x00, 0x07] s t := by
  have hb := beginCommand_commandFrame s
  rcases checkSlot_cases h with rfl | ⟨sl, -, rfl⟩
  · exact raise_commandEnd hb (by decide)
  · exact finish_ok_commandEnd hb _ _ (by decide)

theorem execSetResolution_commandEnd {n bits : Nat} {s t : State} (h : execSetResolution n bits s = .next t) :
    CommandEnd (statusesOf (.setResolution n bits)) s t := by
  have hb := beginCommand_commandFrame s
  rcases execSetResolution_cases h with ⟨c, hc, rfl⟩ | ⟨sl, r, -, -, -, rfl⟩
  · have hcodes : ∀ c ∈ [Status.badSlot, .invalidResolution, .unsupportedFamily, .ok],
        (statusCode c).toNat ∈ [0x00, 0x04, 0x05, 0x07] := by decide
    exact raise_commandEnd hb (hcodes c hc)
  · have hw : CommandFrame s (writeConfig sl.addr r (beginCommand s)) :=
      hb.trans (writeConfig_sameBlock sl.addr r (beginCommand s)).commandFrame
    exact finish_ok_commandEnd (hw.trans (updateSlot_commandFrame n _ _)) _ _ (.head _)

/-- RETRIEVE_DATA once it has read a scratchpad ends SCRATCHPAD_INVALID, DECODE_FAILURE or OK (41_device.md R99, R102, R103). -/
theorem storeReading_commandEnd {s u : State} (hu : CommandFrame s u) (n : Nat) (sl : Slot) (sp : Scratchpad) :
    CommandEnd [0x00, 0x02, 0x03, 0x05, 0x07] s (storeReading n sl sp u) := by
  rcases storeReading_cases n sl sp u with ⟨-, he⟩ | ⟨-, -, he⟩ | ⟨v, -, -, he⟩ <;> rw [he]
  · exact raise_commandEnd hu (by decide)
  · exact raise_commandEnd hu (by decide)
  · exact finish_ok_commandEnd (hu.trans (updateSlot_commandFrame n _ _)) _ _ (by decide)

theorem execRetrieveData_commandEnd {n : Nat} {s t : State} (h : execRetrieveData n s = .next t) :
    CommandEnd (statusesOf (.retrieveData n)) s t := by
  have hb := beginCommand_commandFrame s
  rcases execRetrieveData_cases h with ⟨c, hc, rfl⟩ | ⟨sl, -, -, rfl⟩
  · have hcodes : ∀ c ∈ [Status.badSlot, .unsupportedFamily],
        (statusCode c).toNat ∈ [0x00, 0x02, 0x03, 0x05, 0x07] := by decide
    exact raise_commandEnd hb (hcodes c hc)
  · obtain ⟨sp, u, he, -, hparams, -, hcmd, hinputs, -⟩ := retrieveOn_eq n sl (beginCommand s)
    rw [he]
    exact storeReading_commandEnd (hb.trans ⟨hparams, hcmd, hinputs⟩) n sl sp

/-- How every command ends, in every state and environment. -/
theorem exec_commandEnd {i : Instr} {s t : State} (h : exec i s = .next t) : CommandEnd (statusesOf i) s t := by
  cases i with
  | search => exact execSearch_commandEnd h
  | setResolution n bits => exact execSetResolution_commandEnd h
  | retrieveData n => exact execRetrieveData_commandEnd h
  | resetSearch | getCursor | clearTable | getSlotCount =>
    cases h
    refine finish_ok_commandEnd ?_ _ _ (.head _)
    exact ⟨rfl, rfl, rfl⟩
  | getType | getTypeStr | getAddress | getResolution | getState | getCelsius | getFahrenheit =>
    exact checkSlot_finish_commandEnd h

/-- Settles O59. -/
theorem statusesAndZeroResultsOnFailure : Obligations.StatusesAndZeroResultsOnFailure :=
  fun _ _ _ h => ⟨(exec_commandEnd h).status, (exec_commandEnd h).zeroOnFailure⟩

/-- Settles O60. -/
theorem commandsLeaveParametersCmdAndInputs : Obligations.CommandsLeaveParametersCmdAndInputs :=
  fun _ _ _ h =>
    have hf := (exec_commandEnd h).frame
    ⟨hf.params, hf.cmd, hf.inputs⟩

end Sys2Proof.Machine
end


section
/-! PROOFS. What a command does to the cursor and to the slot table, and what of the cursor it reads (10_state.md R19, R24); the
invariant that every step keeps (R19, R20, R22, R25). -/

namespace Sys2Proof.Machine

/-- Settles O5: the step takes the word off the list, and the word decodes. -/
theorem stepRunsTheDecodedCommand : Obligations.StepRunsTheDecodedCommand := by
  intro s w rest i hin hdec
  rw [step_of_inputs_cons hin]
  simp only [takeInput, runWord, hdec]

/-! ## The cursor and the slot table after a command -/

/-- `CommandEffect s i c l`: the command `i` may take the cursor and the slots of the state `s` to `c` and `l`. -/
inductive CommandEffect (s : State) : Instr → Cursor → List Slot → Prop
  /-- The command writes neither; CLEAR_TABLE always writes the table (41_device.md R85). -/
  | unchanged {i : Instr} (hi : i ≠ .clearTable) : CommandEffect s i s.cur s.slots
  /-- 40_enumeration.md R66. -/
  | resetSearch : CommandEffect s .resetSearch Cursor.initial s.slots
  /-- 40_enumeration.md R76. -/
  | searchFail {cause : PassCause} (hcause : cause ≠ .notOver) :
      CommandEffect s .search { s.cur with done := true, cause := cause } s.slots
  /-- 40_enumeration.md R77: a pass that is not over and a table with room take in a device with a valid address. -/
  | searchCommit {q : SearchSeq} (hdone : s.cur.done = false) (hroom : s.tblCount ≠ s.maxNumDevices)
      (hvalid : addrValid s.params q.work = true) (hlz : -1 ≤ q.lz.toInt ∧ q.lz.toInt ≤ 63) :
      CommandEffect s .search (committedCursor s.cur q) (s.slots ++ [newSlot q.work])
  /-- 41_device.md R85. -/
  | clearTable : CommandEffect s .clearTable s.cur []
  /-- 41_device.md R92. -/
  | setResolution {n bits : Nat} {r : Resolution} {sl : Slot} (hsl : s.slots[n]? = some sl)
      (htype : sl.type = .ds18b20 ∨ sl.type = .ds1822) :
      CommandEffect s (.setResolution n bits) s.cur
        (s.slots.modify n fun x => { x with res := r, state := .configured })
  /-- 41_device.md R102, R103: the scratchpad is invalid or does not decode. -/
  | retrieveFail {n : Nat} :
      CommandEffect s (.retrieveData n) s.cur (s.slots.modify n fun x => { x with state := .ready })
  /-- 41_device.md R99, R104. -/
  | retrieveReading {n : Nat} {v : Temp16} :
      CommandEffect s (.retrieveData n) s.cur
        (s.slots.modify n fun x => { x with temp := v, tvalid := true, state := .ready })

theorem execSearch_effect {s t : State} (h : execSearch s = .next t) : CommandEffect s .search t.cur t.slots := by
  rcases execSearch_cases h with rfl | rfl | ⟨hdone, hroom, rfl⟩
  · exact .unchanged (by decide)
  · exact .unchanged (by decide)
  · rcases searchBus_cases (beginCommand s) with ⟨c, u, hc, hu, he⟩ | ⟨q, u, hu, hvalid, hlo, hhi, he⟩
    · have hcause : c ≠ .notOver := by rcases hc with rfl | rfl | rfl <;> decide
      rw [he]
      simpa [searchFail, hu.cur, hu.slots] using CommandEffect.searchFail (s := s) hcause
    · rw [he]
      simpa [searchCommit, hu.cur, hu.slots] using CommandEffect.searchCommit (s := s) hdone hroom hvalid ⟨hlo, hhi⟩

theorem execSetResolution_effect {n bits : Nat} {s t : State} (h : execSetResolution n bits s = .next t) :
    CommandEffect s (.setResolution n bits) t.cur t.slots := by
  rcases execSetResolution_cases h with ⟨c, -, rfl⟩ | ⟨sl, r, hsl, -, htype, rfl⟩
  · exact .unchanged (by simp)
  · have hw : SameBlock (beginCommand s) (writeConfig sl.addr r (beginCommand s)) := writeConfig_sameBlock ..
    simpa [hw.cur, hw.slots] using CommandEffect.setResolution (s := s) (bits := bits) (r := r) hsl htype

theorem execRetrieveData_effect {n : Nat} {s t : State} (h : execRetrieveData n s = .next t) :
    CommandEffect s (.retrieveData n) t.cur t.slots := by
  rcases execRetrieveData_cases h with ⟨c, -, rfl⟩ | ⟨sl, -, -, rfl⟩
  · exact .unchanged (by simp)
  · obtain ⟨sp, u, he, hslots, -, hcur, -⟩ := retrieveOn_eq n sl (beginCommand s)
    rw [he]
    rcases storeReading_cases n sl sp u with ⟨-, he⟩ | ⟨-, -, he⟩ | ⟨v, -, -, he⟩ <;> rw [he]
    · simpa [hcur, hslots] using CommandEffect.retrieveFail (s := s) (n := n)
    · simpa [hcur, hslots] using CommandEffect.retrieveFail (s := s) (n := n)
    · simpa [hcur, hslots, modify_modify, Function.comp_def] using
        CommandEffect.retrieveReading (s := s) (n := n) (v := BitVec.ofInt 16 v)

/-- A command that only reads its slot writes neither cursor nor table: the five accessors and the two temperature outputs. -/
theorem checkSlot_finish_effect {i : Instr} {n : Nat} {s t : State} {d : Slot → BitVec 64} {x : Slot → BitVec 32}
    (hi : i ≠ .clearTable)
    (h : (.next (checkSlot n (beginCommand s) fun sl => finish .ok (d sl) (x sl)) : Host.Outcome State Fault Refusal) = .next t) :
    CommandEffect s i t.cur t.slots := by
  rcases checkSlot_cases h with rfl | ⟨sl, -, rfl⟩
  · exact .unchanged hi
  · exact .unchanged hi

/-- What every command does to the cursor and the slots, in every state and environment. -/
theorem exec_effect {i : Instr} {s t : State} (h : exec i s = .next t) : CommandEffect s i t.cur t.slots := by
  cases i with
  | search => exact execSearch_effect h
  | setResolution n bits => exact execSetResolution_effect h
  | retrieveData n => exact execRetrieveData_effect h
  | resetSearch => cases h; exact .resetSearch
  | clearTable => cases h; exact .clearTable
  | getCursor | getSlotCount => cases h; exact .unchanged (by decide)
  | getType | getTypeStr | getAddress | getResolution | getState | getCelsius | getFahrenheit =>
    exact checkSlot_finish_effect (by simp) h

/-- The cursor changes only by RESET_SEARCH and SEARCH (10_state.md R19). -/
theorem CommandEffect.cur_eq {s : State} {i : Instr} {c : Cursor} {l : List Slot} (h : CommandEffect s i c l)
    (hi : writesCursor i = false) : c = s.cur := by
  cases h with
  | resetSearch | searchFail | searchCommit => simp [writesCursor] at hi
  | unchanged | clearTable | setResolution | retrieveFail | retrieveReading => rfl

/-- Settles O24. -/
theorem onlySearchCommandsWriteTheCursor : Obligations.OnlySearchCommandsWriteTheCursor :=
  fun _ _ _ hi h => (exec_effect h).cur_eq hi

/-! ## The invariant -/

/-- The initial cursor meets R20 under all parameters (10_state.md R18, R20). -/
theorem cursorInitial_ok (p : Params) : Cursor.initial.Ok p :=
  ⟨by decide, fun _ => rfl, by decide, by decide, fun h => absurd h (by decide)⟩

/-- A pass that ends without a device keeps R20: CUR.CAUSE is then not NONE (40_enumeration.md R76). -/
theorem Cursor.Ok.passOver {p : Params} {c : Cursor} (h : c.Ok p) {cause : PassCause} (hcause : cause ≠ .notOver) :
    ({ c with done := true, cause := cause } : Cursor).Ok p := by
  obtain ⟨hld, -, -, -, hla⟩ := h
  exact ⟨hld, nofun, fun _ => hcause, nofun, hla⟩

/-- A device with a valid address keeps R20: the pass is over iff no branch position is left (40_enumeration.md R77, R78). -/
theorem Cursor.Ok.committed {p : Params} {c : Cursor} (h : c.Ok p) (hdone : c.done = false) {q : SearchSeq}
    (hvalid : addrValid p q.work = true) (hlz : -1 ≤ q.lz.toInt ∧ q.lz.toInt ≤ 63) : (committedCursor c q).Ok p := by
  obtain ⟨-, hcause, -, -, -⟩ := h
  unfold committedCursor
  split
  · exact ⟨hlz, nofun, nofun, nofun, fun _ => hvalid⟩
  · next hff =>
    have hld : 0 ≤ q.lz.toInt := by
      have := mt (branchPos_none q.lz).2 hff
      omega
    refine ⟨hlz, fun _ => hcause hdone, fun hd => ?_, fun _ _ => hld, fun _ => hvalid⟩
    simp [hdone] at hd

/-- A slot as SEARCH allocates it meets R25 (40_enumeration.md R77). -/
theorem newSlot_ok {p : Params} {a : Addr} (h : addrValid p a = true) : (newSlot a).Ok p :=
  ⟨h, rfl, fun _ => rfl, fun _ => rfl, nofun⟩

/-- SET_RESOLUTION configures a DS18B20 or DS1822, so R25 (c) asks nothing of RES (41_device.md R92). -/
theorem Slot.Ok.configured {p : Params} {sl : Slot} (h : sl.Ok p) (htype : sl.type = .ds18b20 ∨ sl.type = .ds1822)
    (r : Resolution) : ({ sl with res := r, state := .configured } : Slot).Ok p := by
  obtain ⟨hvalid, hclass, -, htemp, -⟩ := h
  refine ⟨hvalid, hclass, fun ht => ?_, htemp, nofun⟩
  rcases htype with h | h <;> simp [h] at ht

/-- RETRIEVE_DATA that stores no temperature leaves its slot READY (41_device.md R104). -/
theorem Slot.Ok.ready {p : Params} {sl : Slot} (h : sl.Ok p) : ({ sl with state := .ready } : Slot).Ok p := by
  obtain ⟨hvalid, hclass, hres, htemp, -⟩ := h
  exact ⟨hvalid, hclass, hres, htemp, nofun⟩

/-- RETRIEVE_DATA that stores a temperature sets TVALID with it (41_device.md R99). -/
theorem Slot.Ok.reading {p : Params} {sl : Slot} (h : sl.Ok p) (v : Temp16) :
    ({ sl with temp := v, tvalid := true, state := .ready } : Slot).Ok p := by
  obtain ⟨hvalid, hclass, hres, -, -⟩ := h
  exact ⟨hvalid, hclass, hres, nofun, nofun⟩

/-- A property of all slots after an update of slot n: it held of all, and the update keeps it on slot n. -/
theorem forall_mem_modify {P : Slot → Prop} {l : List Slot} {n : Nat} {f : Slot → Slot} (hl : ∀ x ∈ l, P x)
    (hf : ∀ x, l[n]? = some x → P (f x)) : ∀ y ∈ l.modify n f, P y := by
  intro y hy
  obtain ⟨k, hk⟩ := List.mem_iff_getElem?.1 hy
  rw [List.getElem?_modify] at hk
  obtain ⟨x, hx, rfl⟩ := Option.map_eq_some_iff.1 hk
  split
  · next hnk => exact hf x (hnk ▸ hx)
  · exact hl x (List.mem_of_getElem? hx)

section
variable {s : State} {i : Instr} {c : Cursor} {l : List Slot}

theorem CommandEffect.cursor_ok (h : CommandEffect s i c l) (hc : s.cur.Ok s.params) : c.Ok s.params := by
  cases h with
  | resetSearch => exact cursorInitial_ok _
  | searchFail hcause => exact hc.passOver hcause
  | searchCommit hdone _ hvalid hlz => exact hc.committed hdone hvalid hlz
  | unchanged | clearTable | setResolution | retrieveFail | retrieveReading => exact hc

theorem CommandEffect.slots_ok (h : CommandEffect s i c l) (hs : ∀ sl ∈ s.slots, sl.Ok s.params) :
    ∀ sl ∈ l, sl.Ok s.params := by
  cases h with
  | unchanged | resetSearch | searchFail => exact hs
  | searchCommit _ _ hvalid =>
    intro sl hsl
    rcases List.mem_append.1 hsl with hsl | hsl
    · exact hs sl hsl
    · rw [List.mem_singleton.1 hsl]
      exact newSlot_ok hvalid
  | clearTable => nofun
  | setResolution hsl htype =>
    refine forall_mem_modify hs fun x hx => ?_
    cases hsl.symm.trans hx
    exact (hs _ (List.mem_of_getElem? hx)).configured htype _
  | retrieveFail => exact forall_mem_modify hs fun x hx => (hs x (List.mem_of_getElem? hx)).ready
  | retrieveReading => exact forall_mem_modify hs fun x hx => (hs x (List.mem_of_getElem? hx)).reading _

/-- TBL.COUNT stays, or SEARCH takes one slot of a table that is not full, or CLEAR_TABLE frees all (10_state.md R24). -/
theorem CommandEffect.count_cases (h : CommandEffect s i c l) :
    (i ≠ .clearTable ∧ l.length = s.tblCount) ∨
    (i = .search ∧ s.tblCount ≠ s.maxNumDevices ∧ l.length = s.tblCount + 1) ∨
    (i = .clearTable ∧ l.length = 0) := by
  cases h with
  | unchanged hi => exact .inl ⟨hi, rfl⟩
  | resetSearch | searchFail => exact .inl ⟨by decide, rfl⟩
  | setResolution | retrieveFail | retrieveReading => exact .inl ⟨by simp, List.length_modify ..⟩
  | searchCommit _ hroom => exact .inr (.inl ⟨rfl, hroom, List.length_append ..⟩)
  | clearTable => exact .inr (.inr ⟨rfl, rfl⟩)

end

/-- STATUS codes are at most 8 (30_encoding.md R54). -/
theorem statusesOf_le (i : Instr) : ∀ x ∈ statusesOf i, x ≤ 8 := by
  cases i <;> simp [statusesOf]

/-- Every command keeps the invariant, whatever the bus answers. -/
theorem exec_inv {i : Instr} {s t : State} (hs : s.Inv) (h : exec i s = .next t) : t.Inv := by
  obtain ⟨hcur, hslots, hcount, -⟩ := hs
  have he := exec_effect h
  have hend := exec_commandEnd h
  have hparams := hend.frame.params
  refine ⟨hparams ▸ he.cursor_ok hcur, hparams ▸ he.slots_ok hslots, ?_, statusesOf_le i _ hend.status⟩
  have hmax : t.maxNumDevices = s.maxNumDevices := by rw [maxNumDevices_eq, hparams, maxNumDevices_eq]
  have := he.count_cases
  rw [hmax, tblCount_eq]
  omega

/-- The invariant at power-on, under all parameters and in every outside world (70_reset_and_hazards.md R136). -/
theorem powerOnWith_inv (p : Params) (ins : List Input) (e : Env) (k : Nat) : (State.powerOnWith p ins e k).Inv :=
  ⟨cursorInitial_ok p, nofun, Nat.zero_le _, Nat.zero_le _⟩

/-- Settles O3: reset is power-on with the parameters at reset. -/
theorem powerOnMeetsInvariant : Obligations.PowerOnMeetsInvariant :=
  ⟨powerOnWith_inv, powerOnWith_inv ..⟩

/-- A word written to CMD keeps the invariant, whether it selects a command or not (30_encoding.md R52). -/
theorem runWord_inv {w : Word} {s t : State} (hs : s.Inv) (h : runWord w s = .next t) : t.Inv := by
  obtain ⟨hcur, hslots, hcount, hstatus⟩ := hs
  unfold runWord at h
  split at h
  · exact exec_inv (s := { s with cmd := w }) ⟨hcur, hslots, hcount, hstatus⟩ h
  · cases h
    exact ⟨hcur, hslots, hcount, Nat.le_refl 8⟩

/-- A command that may stall answers next only as the command itself does (60_exceptions.md R128; log 12). -/
theorem stalled_next {k : Nat} {o : Host.Outcome State Fault Refusal} {t : State} (h : stalled k o = .next t) : o = .next t := by
  cases o with
  | next u =>
    simp only [stalled] at h
    split at h
    · cases h
    · exact h
  | fault | refused => cases h

/-- Every input keeps the invariant. -/
theorem takeInput_inv {inp : Input} {s t : State} (hs : s.Inv) (h : takeInput inp s = .next t) : t.Inv := by
  cases inp with
  | command w => exact runWord_inv hs h
  | commandStalls w k => exact runWord_inv hs (stalled_next h)
  | powerOn => cases h; exact powerOnWith_inv ..
  | environment e => cases h; exact hs
  | powerOnDuring | commandDuring | outOfScope => cases h

/-- Settles O4, by the kinds of input; a command keeps the invariant by the cases of `CommandEffect`. -/
theorem stepKeepsInvariant : Obligations.StepKeepsInvariant := by
  intro s t hs h
  cases hin : s.inputs with
  | nil =>
    rw [step_of_inputs_nil hin] at h
    cases h
    exact hs
  | cons inp rest =>
    rw [step_of_inputs_cons hin] at h
    exact takeInput_inv (s := { s with inputs := rest }) hs h

/-! ## What a command may change of a slot -/

/-- `SlotChange i n a b`: the command `i` may take the occupied slot n from `a` to `b` (10_state.md R24). -/
structure SlotChange (i : Instr) (n : Nat) (a b : Slot) : Prop where
  addr : b.addr = a.addr
  type : b.type = a.type
  res : b.res ≠ a.res → ∃ bits, i = .setResolution n bits
  reading : b.temp ≠ a.temp ∨ b.tvalid ≠ a.tvalid → i = .retrieveData n
  state : b.state ≠ a.state → (∃ bits, i = .setResolution n bits) ∨ i = .retrieveData n

theorem SlotChange.refl (i : Instr) (n : Nat) (a : Slot) : SlotChange i n a a :=
  ⟨rfl, rfl, fun h => absurd rfl h, fun h => h.elim (absurd rfl) (absurd rfl), fun h => absurd rfl h⟩

theorem SlotChange.setResolution (n bits : Nat) (r : Resolution) (a : Slot) :
    SlotChange (.setResolution n bits) n a { a with res := r, state := .configured } :=
  ⟨rfl, rfl, fun _ => ⟨bits, rfl⟩, fun h => h.elim (absurd rfl) (absurd rfl), fun _ => .inl ⟨bits, rfl⟩⟩

theorem SlotChange.retrieveFail (n : Nat) (a : Slot) : SlotChange (.retrieveData n) n a { a with state := .ready } :=
  ⟨rfl, rfl, fun h => absurd rfl h, fun _ => rfl, fun _ => .inr rfl⟩

theorem SlotChange.retrieveReading (n : Nat) (v : Temp16) (a : Slot) :
    SlotChange (.retrieveData n) n a { a with temp := v, tvalid := true, state := .ready } :=
  ⟨rfl, rfl, fun h => absurd rfl h, fun _ => rfl, fun _ => .inr rfl⟩

/-- An update of slot m by the command `i` changes slot m as `i` may, and no other slot. -/
theorem SlotChange.of_modify {i : Instr} {l : List Slot} {m n : Nat} {f : Slot → Slot} {a b : Slot}
    (hf : SlotChange i m a (f a)) (ha : l[n]? = some a) (hb : (l.modify m f)[n]? = some b) : SlotChange i n a b := by
  rw [List.getElem?_modify, ha] at hb
  cases hb
  simp only
  split
  · next hmn => exact hmn ▸ hf
  · exact .refl ..

/-- A slot that is occupied before and after a command changes only as R24 allows. -/
theorem CommandEffect.slotChange {s : State} {i : Instr} {c : Cursor} {l : List Slot} (h : CommandEffect s i c l)
    {n : Nat} {a b : Slot} (ha : s.slots[n]? = some a) (hb : l[n]? = some b) : SlotChange i n a b := by
  cases h with
  | unchanged | resetSearch | searchFail =>
    cases ha.symm.trans hb
    exact .refl ..
  | searchCommit =>
    have hn : n < s.slots.length := (List.getElem?_eq_some_iff.1 ha).1
    rw [List.getElem?_append_left hn, ha] at hb
    cases hb
    exact .refl ..
  | clearTable => cases hb
  | setResolution => exact .of_modify (.setResolution ..) ha hb
  | retrieveFail => exact .of_modify (.retrieveFail ..) ha hb
  | retrieveReading => exact .of_modify (.retrieveReading ..) ha hb

/-- Settles O58, by the cases of `CommandEffect`. -/
theorem slotFieldsChangeOnlyByTheirCommands : Obligations.SlotFieldsChangeOnlyByTheirCommands := by
  intro i s t h
  have he := exec_effect h
  refine ⟨fun n a b ha hb => ?slot, ?count⟩
  case slot =>
    have hc := he.slotChange ha hb
    exact ⟨hc.addr, hc.type, hc.res, hc.reading, hc.state⟩
  case count =>
    rcases he.count_cases with ⟨hi, hl⟩ | ⟨hi, -, hl⟩ | ⟨hi, hl⟩
    · exact ⟨.inl hl, fun hc => absurd hc hi⟩
    · exact ⟨.inr (.inl ⟨hi, hl⟩), fun hc => nomatch hi.symm.trans hc⟩
    · exact ⟨.inr (.inr ⟨hi, hl⟩), fun _ => hl⟩

/-! ## CUR.PASS against TBL.COUNT and MAX_NUM_DEVICES -/

/-- CUR.PASS goes up by one with each device, modulo 2^16 (40_enumeration.md R77, R78). -/
@[simp] theorem committedCursor_pass (c : Cursor) (q : SearchSeq) : (committedCursor c q).pass = c.pass + 1 := by
  unfold committedCursor
  split <;> rfl

/-- Every increment of CUR.PASS comes with a slot, and only CLEAR_TABLE takes slots away (10_state.md R19). -/
theorem CommandEffect.pass_le_count {s : State} {i : Instr} {c : Cursor} {l : List Slot} (h : CommandEffect s i c l)
    (hi : i ≠ .clearTable) (hs : s.cur.pass.toNat ≤ s.tblCount) : c.pass.toNat ≤ l.length := by
  cases h with
  | unchanged | searchFail => exact hs
  | resetSearch => exact Nat.zero_le _
  | searchCommit =>
    have hadd : (s.cur.pass + 1).toNat ≤ s.cur.pass.toNat + 1 := by
      rw [BitVec.toNat_add]
      exact Nat.mod_le ..
    rw [committedCursor_pass, List.length_append]
    exact hadd.trans (Nat.succ_le_succ hs)
  | clearTable => exact absurd rfl hi
  | setResolution | retrieveFail | retrieveReading => rwa [List.length_modify]

/-- A SEARCH that ends OK has found a device (40_enumeration.md R77). -/
theorem execSearch_ok_pass {s t : State} (h : execSearch s = .next t) (hok : t.status = 0x00) :
    t.cur.pass = s.cur.pass + 1 := by
  rcases execSearch_cases h with rfl | rfl | ⟨-, -, rfl⟩
  · simp [statusCode] at hok
  · simp [statusCode] at hok
  · rcases searchBus_cases (beginCommand s) with ⟨c, u, -, -, he⟩ | ⟨q, u, hu, -, -, -, he⟩
    · simp [he, searchFail, statusCode] at hok
    · simp [he, searchCommit, hu.cur]

/-- CLEAR_TABLE leaves CUR.PASS alone, so that a pass that has filled the table goes past it (40_enumeration.md R70, R77,
41_device.md R85). -/
theorem pass_after_clearTable_search {s u t : State} (hpass : s.cur.pass.toNat = s.maxNumDevices)
    (hu : exec .clearTable s = .next u) (ht : exec .search u = .next t) (hok : t.status = 0x00) :
    t.cur.pass.toNat = s.maxNumDevices + 1 := by
  have hmax := (maxNumDevices_range s).2
  have htu : t.cur.pass = u.cur.pass + 1 := execSearch_ok_pass ht hok
  cases hu
  rw [htu, finish_cur, beginCommand_cur, BitVec.toNat_add_of_lt, hpass]
  · rfl
  · simp; omega

/-- A sensor with this address, and nothing else to say of it. -/
def blankSensor (a : Addr) : Sensor := { addr := a, pad := ⟨0, 0, 0, 0, 0, 0, 0, 0, 0⟩, conversions := [], taking := false }

/-- As in program P5 after its first device, with MAX_NUM_DEVICES = 1: the first of the two devices on the bus has filled
the table, and the pass is not over. -/
def fullTableMidPass : State :=
  { State.powerOnWith { lastSlot := 0, crc := .dallasMaxim, wsTh := 0x00, wsTl := 0x00, layout := .vendor67 } []
      (.reference { sensors := [blankSensor 0x880008017C3EA210, blankSensor 0xFE0416916A4BFF28], phase := .idle }) 0 with
    cur := { la := 0x880008017C3EA210, ld := 3, done := false, cause := .notOver, pass := 1 }
    slots := [newSlot 0x880008017C3EA210] }

/-- That state after CLEAR_TABLE. -/
def clearedMidPass : State := finish .ok 0 0 { beginCommand fullTableMidPass with slots := [] }

/-- And after the SEARCH that finds the second device. -/
def secondDeviceFound : State := searchBus (beginCommand clearedMidPass)

set_option maxRecDepth 20000 in
theorem fullTableMidPass_inv : fullTableMidPass.Inv := by decide

set_option maxRecDepth 20000 in
theorem secondDeviceFound_status : secondDeviceFound.status = 0x00 := by decide

/-- Settles O26: the first part by the cases of `CommandEffect`, the last by CLEAR_TABLE and SEARCH on `fullTableMidPass`. -/
theorem passCountCanExceedTheTableSize : Obligations.PassCountCanExceedTheTableSize := by
  refine ⟨fun i s t hi hs h => (exec_effect h).pass_le_count hi hs,
    fun s u t hpass _ hu ht hok => pass_after_clearTable_search hpass hu ht hok,
    fullTableMidPass, clearedMidPass, secondDeviceFound, ?_⟩
  have hpass : fullTableMidPass.cur.pass.toNat = fullTableMidPass.maxNumDevices := by decide
  have hclear : exec .clearTable fullTableMidPass = .next clearedMidPass := rfl
  have hsearch : exec .search clearedMidPass = .next secondDeviceFound := execSearch_bus rfl (by decide)
  have hexceeds := pass_after_clearTable_search hpass hclear hsearch secondDeviceFound_status
  have hmax : secondDeviceFound.maxNumDevices = fullTableMidPass.maxNumDevices := by
    rw [maxNumDevices_eq, (exec_commandEnd hsearch).frame.params, (exec_commandEnd hclear).frame.params, maxNumDevices_eq]
  exact ⟨fullTableMidPass_inv, hpass, by decide, hclear, hsearch, secondDeviceFound_status,
    exec_inv (exec_inv fullTableMidPass_inv hclear) hsearch, by omega⟩

/-! ## Commands that do not read the cursor -/

/-- The state with another cursor. -/
def State.withCursor (c : Cursor) (s : State) : State := { s with cur := c }

theorem State.withCursor_params (c : Cursor) (s : State) : (s.withCursor c).params = s.params := rfl
theorem State.withCursor_slots (c : Cursor) (s : State) : (s.withCursor c).slots = s.slots := rfl

/-- The cursor does not matter to `f`, which passes it through. -/
def IgnoresCursor (f : State → State) : Prop := ∀ c s, f (s.withCursor c) = (f s).withCursor c

theorem IgnoresCursor.comp {f g : State → State} (hg : IgnoresCursor g) (hf : IgnoresCursor f) :
    IgnoresCursor fun s => g (f s) :=
  fun c s => (congrArg g (hf c s)).trans (hg c (f s))

theorem beginCommand_ignoresCursor : IgnoresCursor beginCommand := fun _ _ => rfl
theorem finish_ignoresCursor (code : Status) (d : BitVec 64) (x : BitVec 32) : IgnoresCursor (finish code d x) := fun _ _ => rfl
theorem raise_ignoresCursor (code : Status) : IgnoresCursor (raise code) := fun _ _ => rfl
theorem updateSlot_ignoresCursor (n : Nat) (f : Slot → Slot) : IgnoresCursor (updateSlot n f) := fun _ _ => rfl
theorem busReset_ignoresCursor : IgnoresCursor fun s => (busReset s).2 := fun _ _ => rfl
theorem busWriteByte_ignoresCursor (b : Byte) : IgnoresCursor (busWriteByte b) := fun _ _ => rfl
theorem busDelay_ignoresCursor (ms : Nat) : IgnoresCursor (busDelay ms) := fun _ _ => rfl

theorem busWriteBytes_ignoresCursor : ∀ bs, IgnoresCursor (busWriteBytes bs)
  | [] => fun _ _ => rfl
  | b :: rest => (busWriteBytes_ignoresCursor rest).comp (busWriteByte_ignoresCursor b)

theorem matchRom_ignoresCursor (a : Addr) : IgnoresCursor (matchRom a) :=
  (busWriteBytes_ignoresCursor _).comp ((busWriteByte_ignoresCursor _).comp busReset_ignoresCursor)

theorem writeConfig_ignoresCursor (a : Addr) (r : Resolution) : IgnoresCursor (writeConfig a r) := by
  intro c s
  unfold writeConfig
  rw [matchRom_ignoresCursor, busWriteBytes_ignoresCursor]
  rfl

theorem readScratchpad_withCursor (c : Cursor) (s : State) :
    readScratchpad (s.withCursor c) = ((readScratchpad s).1, (readScratchpad s).2.withCursor c) := rfl

/-- The calls of RETRIEVE_DATA before it reads the scratchpad do not read the cursor. -/
theorem convertAndRead_withCursor (sl : Slot) (c : Cursor) (s : State) :
    convertAndRead sl (s.withCursor c) = ((convertAndRead sl s).1, (convertAndRead sl s).2.withCursor c) := by
  have hbus := (busWriteByte_ignoresCursor cmdReadScratchpad).comp ((matchRom_ignoresCursor sl.addr).comp
    ((busDelay_ignoresCursor (tconv sl.res)).comp ((busWriteByte_ignoresCursor cmdConvertT).comp
      (matchRom_ignoresCursor sl.addr))))
  exact (congrArg readScratchpad (hbus c s)).trans (readScratchpad_withCursor ..)

theorem setResolutionOn_ignoresCursor (n : Nat) (r : Resolution) (sl : Slot) : IgnoresCursor (setResolutionOn n r sl) := by
  unfold setResolutionOn
  split
  · exact raise_ignoresCursor _
  · exact finish_ignoresCursor _ _ _
  all_goals
    exact (finish_ignoresCursor _ _ _).comp ((updateSlot_ignoresCursor _ _).comp (writeConfig_ignoresCursor _ _))

theorem storeReading_ignoresCursor (n : Nat) (sl : Slot) (sp : Scratchpad) : IgnoresCursor (storeReading n sl sp) := by
  intro c s
  unfold storeReading
  rw [State.withCursor_params]
  split
  · split <;> rfl
  · rfl

theorem retrieveOn_ignoresCursor (n : Nat) (sl : Slot) : IgnoresCursor (retrieveOn n sl) := by
  intro c s
  unfold retrieveOn
  rw [updateSlot_ignoresCursor, convertAndRead_withCursor]
  exact ((storeReading_ignoresCursor n sl _).comp (updateSlot_ignoresCursor _ _)) c _

/-- A per-device command does not read the cursor if it does not once its slot is found. -/
theorem checkSlot_ignoresCursor {n : Nat} {k : Slot → State → State} (hk : ∀ sl, IgnoresCursor (k sl)) :
    IgnoresCursor fun s => checkSlot n (beginCommand s) k := by
  intro c s
  simp only [checkSlot]
  rw [beginCommand_ignoresCursor, State.withCursor_slots]
  split
  · rfl
  · exact hk _ c _

/-- All commands but RESET_SEARCH, SEARCH and GET_CURSOR (10_state.md R19). -/
theorem exec_ignoresCursor {i : Instr} (hw : writesCursor i = false) (hi : i ≠ .getCursor) :
    ∃ f, IgnoresCursor f ∧ ∀ s, exec i s = .next (f s) := by
  cases i with
  | resetSearch | search => simp [writesCursor] at hw
  | getCursor => exact absurd rfl hi
  | clearTable | getSlotCount => exact ⟨_, fun _ _ => rfl, fun _ => rfl⟩
  | getType | getTypeStr | getAddress | getResolution | getState | getCelsius | getFahrenheit =>
    exact ⟨_, checkSlot_ignoresCursor fun _ => finish_ignoresCursor _ _ _, fun _ => rfl⟩
  | setResolution n bits =>
    refine ⟨_, checkSlot_ignoresCursor fun sl => ?_, fun _ => rfl⟩
    cases resolutionOf bits with
    | none => exact raise_ignoresCursor _
    | some r => exact setResolutionOn_ignoresCursor n r sl
  | retrieveData n =>
    refine ⟨_, checkSlot_ignoresCursor fun sl => ?_, fun _ => rfl⟩
    split
    · exact raise_ignoresCursor _
    all_goals exact retrieveOn_ignoresCursor n sl

/-- Settles O25. -/
theorem cursorIsUnreadByOtherCommands : Obligations.CursorIsUnreadByOtherCommands := by
  intro i s t c hw hi h
  obtain ⟨f, hf, hexec⟩ := exec_ignoresCursor hw hi
  rw [hexec] at h
  cases h
  exact (hexec _).trans (congrArg _ (hf c s))

end Sys2Proof.Machine
end

section
/-! PROOFS. RETRIEVE_DATA on prepared answers (41_device.md R99 to R104): its bus calls, and the whole state after them. -/

namespace Sys2Proof.Machine

/-! ## The bus transactions with prepared answers -/

/-- The start of a transaction takes one presence bit (41_device.md R92, R96, R99). -/
theorem matchRom_answers {s : State} {p : Bool} {ps bits : List Bool} {bytes : List Byte}
    (h : s.env = .answers (p :: ps) bits bytes) (a : Addr) :
    matchRom a s = { s with env := .answers ps bits bytes, trace := s.trace ++ matchTrace p a } := by
  rw [matchRom, busReset_answers h, busWriteByte_answers rfl, busWriteBytes_answers _ rfl]
  simp [matchTrace, addrBytes, addrByte, cmdMatchRom, List.range_succ]

/-- RETRIEVE_DATA takes two presence bits and the nine bytes of a scratchpad (41_device.md R99, R101). -/
theorem convertAndRead_answers {s : State} {p q : Bool} {ps bits : List Bool} {sp : Scratchpad} {rest : List Byte}
    (h : s.env = .answers (p :: q :: ps) bits (padBytes sp ++ rest)) (sl : Slot) :
    convertAndRead sl s =
      (sp, { s with env := .answers ps bits rest, trace := s.trace ++ retrieveTrace sl p q sp }) := by
  rw [convertAndRead, matchRom_answers h, busWriteByte_answers rfl, busDelay, emit, matchRom_answers rfl,
    busWriteByte_answers rfl, readScratchpad_answers rfl]
  simp [retrieveTrace, tconv_eq, cmdConvertT, cmdReadScratchpad]

/-! ## The state after them -/

/-- An update of an occupied slot replaces it. -/
theorem modify_occupied {l : List Slot} {n : Nat} {sl : Slot} (h : l[n]? = some sl) (f : Slot → Slot) :
    l.modify n f = l.set n (f sl) := by
  simp [List.modify_eq_set_getElem?, h]

/-- RETRIEVE_DATA on a slot of a known type, up to the check of the scratchpad `sp` that the bus gives (41_device.md R99, R104). -/
theorem exec_retrieveData_answers {s : State} {n : Nat} {sl : Slot} {p q : Bool} {ps bits : List Bool} {sp : Scratchpad}
    {rest : List Byte} (hs : s.slots[n]? = some sl) (ht : sl.type ≠ .unknown)
    (he : s.env = .answers (p :: q :: ps) bits (padBytes sp ++ rest)) :
    exec (.retrieveData n) s = .next (storeReading n sl sp
      { s with slots := s.slots.set n { sl with state := .ready }, trace := retrieveTrace sl p q sp,
               env := .answers ps bits rest }) := by
  have hread := convertAndRead_answers
    (s := updateSlot n (fun x => { x with state := .converting }) (beginCommand s)) he sl
  have hready : (s.slots.modify n fun x => { x with state := .converting }).modify n (fun x => { x with state := .ready }) =
      s.slots.set n { sl with state := .ready } := by
    rw [modify_modify, modify_occupied hs, Function.comp_apply]
  rw [exec, execRetrieveData_known hs ht, retrieveOn, hread]
  simp only [updateSlot, beginCommand, hready, List.nil_append]

/-- A good scratchpad that decodes to `v`: TEMP, TVALID and the results (41_device.md R99, R110). -/
theorem storeReading_decoded {u : State} {n : Nat} {sl cached : Slot} {sp : Scratchpad} {v : Int}
    (hs : u.slots[n]? = some cached) (hok : scratchpadOk u.params sp = true) (hv : decodedReading u.params sl sp = some v) :
    storeReading n sl sp u =
      { u with slots := u.slots.set n { cached with temp := BitVec.ofInt 16 v, tvalid := true },
               status := 0x00, rdata := BitVec.ofInt 64 v, raux := 0 } := by
  simp [storeReading, hok, decodeTemp_eq, hv, finish, updateSlot, modify_occupied hs, statusCode, sext64]

/-- Settles O44: the bus calls leave the slot READY, and the reading is stored in that slot. -/
theorem retrieveStoresTheDecodedTemperature : Obligations.RetrieveStoresTheDecodedTemperature := by
  intro s n sl p q ps bits sp rest v hs ht he hok hv
  have hready : (s.slots.set n { sl with state := .ready })[n]? = some { sl with state := .ready } :=
    List.getElem?_set_self (List.getElem?_eq_some_iff.mp hs).1
  refine (exec_retrieveData_answers hs ht he).trans (congrArg _ (Eq.trans (storeReading_decoded hready hok hv) ?_))
  simp only [List.set_set]

end Sys2Proof.Machine
end

section
/-! PROOFS. The decoder and the encoder (30_encoding.md R48 to R52): a word decodes to the command whose fields it has, and the rows
of the opcode table are the same test under masks. -/

namespace Sys2Proof

open Machine

open Laws.EncodeFields (fieldsOf)

/-! ## The fields of a word -/

/-- The four fields are the whole word (30_encoding.md R49). -/
theorem word_eq_iff_fields {w v : Word} :
    w = v ↔ opField w = opField v ∧ slotField w = slotField v ∧ argField w = argField v ∧ rsvdField w = rsvdField v := by
  have hw := w.isLt
  have hv := v.isLt
  simp only [opField, slotField, argField, rsvdField, ← BitVec.toNat_inj, BitVec.extractLsb'_toNat, Nat.shiftRight_eq_div_pow]
  omega

@[simp] theorem opField_and (w m : Word) : opField (w &&& m) = opField w &&& opField m := BitVec.extractLsb'_and
@[simp] theorem slotField_and (w m : Word) : slotField (w &&& m) = slotField w &&& slotField m := BitVec.extractLsb'_and
@[simp] theorem argField_and (w m : Word) : argField (w &&& m) = argField w &&& argField m := BitVec.extractLsb'_and
@[simp] theorem rsvdField_and (w m : Word) : rsvdField (w &&& m) = rsvdField w &&& rsvdField m := BitVec.extractLsb'_and

/-- The word of a command is assembled from its fields (30_encoding.md R49, R64). -/
theorem encode_eq_commandWord (i : Instr) : encode i = commandWord (fieldsOf i).1 (fieldsOf i).2.1 (fieldsOf i).2.2 := by
  cases i <;> rfl

/-- A command is well formed iff its SLOT and ARG are bytes (30_encoding.md R50). -/
theorem wf_iff_fields (i : Instr) : i.wf = true ↔ (fieldsOf i).2.1 < 2 ^ 8 ∧ (fieldsOf i).2.2 < 2 ^ 8 := by
  cases i <;> simp [Instr.wf, fieldsOf] <;> omega

/-! ## What the decoder accepts -/

/-- `w` has the fields of the command `i`, and RSVD 0. -/
def HasFieldsOf (w : Word) (i : Instr) : Prop :=
  opField w = (fieldsOf i).1 ∧ (slotField w).toNat = (fieldsOf i).2.1 ∧ (argField w).toNat = (fieldsOf i).2.2 ∧ rsvdField w = 0

theorem rowPlain_eq_ok {w : Word} {i j : Instr} :
    rowPlain w i = .ok j ↔ i = j ∧ slotField w = 0 ∧ argField w = 0 ∧ rsvdField w = 0 := by
  unfold rowPlain
  split_ifs <;> simp_all

theorem rowSlot_eq_ok {w : Word} {mk : Nat → Instr} {j : Instr} :
    rowSlot w mk = .ok j ↔ mk (slotField w).toNat = j ∧ argField w = 0 ∧ rsvdField w = 0 := by
  unfold rowSlot
  split_ifs <;> simp_all

theorem rowSlotBits_eq_ok {w : Word} {mk : Nat → Nat → Instr} {j : Instr} :
    rowSlotBits w mk = .ok j ↔ mk (slotField w).toNat (argField w).toNat = j ∧ rsvdField w = 0 := by
  unfold rowSlotBits
  split_ifs <;> simp_all

/-- All that the decoder accepts (30_encoding.md R51): a word decodes to the one command whose fields it has. -/
theorem decode_eq_ok_iff {w : Word} {i : Instr} : decode w = .ok i ↔ HasFieldsOf w i := by
  constructor
  · intro h
    unfold decode at h
    split at h
    case h_15 => cases h
    all_goals
      next hop =>
      simp only [rowPlain_eq_ok, rowSlot_eq_ok, rowSlotBits_eq_ok] at h
      obtain ⟨rfl, h⟩ := h
      simp [HasFieldsOf, fieldsOf, ← BitVec.toNat_inj, hop, h]
  · rintro ⟨hop, hslot, harg, hrsvd⟩
    cases i <;> simp_all [fieldsOf, decode, rowPlain_eq_ok, rowSlot_eq_ok, rowSlotBits_eq_ok, ← BitVec.toNat_inj]

/-- Settles O8: the word of a well-formed command has the command's fields. -/
theorem decodeOfEncode : Obligations.DecodeOfEncode := by
  intro i hwf
  obtain ⟨hslot, hbits⟩ := (wf_iff_fields i).mp hwf
  rw [decode_eq_ok_iff, encode_eq_commandWord]
  exact ⟨opField_commandWord .., by simpa using hslot, by simpa using hbits,
    rsvdField_commandWord ..⟩

/-- Settles O9: a word with the fields of a command is the command's word, and a field is a byte. -/
theorem encodeOfDecode : Obligations.EncodeOfDecode := by
  intro w i h
  obtain ⟨hop, hslot, harg, hrsvd⟩ := decode_eq_ok_iff.mp h
  constructor
  · rw [encode_eq_commandWord, word_eq_iff_fields]
    simp [← hop, ← hslot, ← harg, hrsvd]
  · rw [wf_iff_fields, ← hslot, ← harg]
    exact ⟨(slotField w).isLt, (argField w).isLt⟩

/-! ## The rows of the opcode table -/

/-- An existential over the commands, one disjunct for each row of the opcode table, in its order. -/
theorem exists_instr {P : Instr → Prop} :
    (∃ i, P i) ↔ P .resetSearch ∨ P .search ∨ P .getCursor ∨ P .clearTable ∨ P .getSlotCount ∨ (∃ n, P (.getType n)) ∨
      (∃ n, P (.getTypeStr n)) ∨ (∃ n, P (.getAddress n)) ∨ (∃ n, P (.getResolution n)) ∨ (∃ n, P (.getState n)) ∨
      (∃ n bits, P (.setResolution n bits)) ∨ (∃ n, P (.retrieveData n)) ∨ (∃ n, P (.getCelsius n)) ∨
      ∃ n, P (.getFahrenheit n) := by
  constructor
  · rintro ⟨i, h⟩
    cases i <;> grind
  · grind

/-- A word decodes iff it matches a row (30_encoding.md R51): the operand fields of a command are those its row's mask leaves out. -/
theorem exists_decode_iff_row (w : Word) : (∃ i, decode w = .ok i) ↔ ∃ row ∈ opcodeRows, w &&& row.2 = row.1 := by
  have hfull (b : Byte) : b &&& 255#8 = b := BitVec.and_allOnes
  have hzero (b : Byte) : b.toNat = 0 ↔ b = 0 := BitVec.toNat_inj (y := 0)
  simp only [decode_eq_ok_iff, exists_instr, HasFieldsOf, opcodeRows, word_eq_iff_fields, opField_and, slotField_and,
    argField_and, rsvdField_and]
  generalize opField w = op, slotField w = slot, argField w = arg, rsvdField w = rsvd
  simp [fieldsOf, hzero, opField, slotField, argField, rsvdField, hfull]

/-- No word matches two rows: each row's mask has all of OP, and the rows differ in it. -/
theorem matchingRows_length_le_one (w : Word) : (opcodeRows.filter fun row => w &&& row.2 == row.1).length ≤ 1 := by
  have hmask : ∀ row ∈ opcodeRows, opField row.2 = BitVec.allOnes 8 := by simp [opcodeRows, opField]
  have hop : (opcodeRows.map fun row => opField row.1).Nodup := by decide
  have hmatch : ∀ row ∈ opcodeRows, (w &&& row.2 == row.1) = true → opField row.1 = opField w := by
    intro row hrow h
    rw [← eq_of_beq h, opField_and, hmask row hrow, BitVec.and_allOnes]
  calc (opcodeRows.filter fun row => w &&& row.2 == row.1).length
      = opcodeRows.countP fun row => w &&& row.2 == row.1 := List.countP_eq_length_filter.symm
    _ ≤ opcodeRows.countP fun row => opField row.1 == opField w :=
        List.countP_mono_left fun row hrow h => beq_iff_eq.mpr (hmatch row hrow h)
    _ = (opcodeRows.map fun row => opField row.1).count (opField w) := by rw [List.count, List.countP_map]; rfl
    _ ≤ 1 := List.nodup_iff_count_le_one.mp hop _

/-- Settles O10. -/
theorem decodeAcceptsExactlyTheOpcodeRows : Obligations.DecodeAcceptsExactlyTheOpcodeRows :=
  ⟨exists_decode_iff_row, matchingRows_length_le_one⟩

/-- A word that matches no row is rejected (30_encoding.md R52). -/
theorem decode_eq_error_of_no_row {w : Word} (h : ∀ row ∈ opcodeRows, w &&& row.2 ≠ row.1) : ∃ e, decode w = .error e := by
  cases hdec : decode w with
  | error e => exact ⟨e, rfl⟩
  | ok i =>
    obtain ⟨row, hrow, hmatch⟩ := (exists_decode_iff_row w).mp ⟨i, hdec⟩
    exact absurd hmatch (h row hrow)

/-- Settles O6: the word is taken off the list and rejected, which ends the command ILLEGAL_COMMAND. -/
theorem illegalWordHasNoOtherEffect : Obligations.IllegalWordHasNoOtherEffect := by
  intro s w rest hin hrows
  obtain ⟨e, hdec⟩ := decode_eq_error_of_no_row hrows
  rw [step_of_inputs_cons hin]
  simp only [takeInput, runWord, hdec]
  rfl

/-! ## Words and lines written out -/

/-- Settles O11: each word is closed, and so are its four fields. -/
theorem writtenOutWordsDecode : Obligations.WrittenOutWordsDecode := by
  unfold Obligations.WrittenOutWordsDecode
  decide

/-- Settles O12: the lines are closed, and the words of MEASURE and MEASURE_F are their definition. -/
theorem assemblerEncodesLines : Obligations.AssemblerEncodesLines := by
  exact ⟨by decide, by decide, by decide, by decide, by decide, by decide, by decide, fun _ => ⟨rfl, rfl⟩⟩

end Sys2Proof
end

section
/-! PROOFS. The commands without a bus call that only read: GET_CURSOR (40_enumeration.md R84) and the accessors
(41_device.md R87 to R91). And what the address and scratchpad checks accept (30_encoding.md R60, 42_decoder.md R109). -/

namespace Sys2Proof.Machine

/-! ## RAUX of GET_CURSOR -/

/-- RAUX is the fields of the cursor side by side (40_enumeration.md R84). -/
theorem cursorAux_toNat (c : Cursor) :
    (cursorAux c).toNat =
      2 ^ 16 * c.pass.toNat + (2 ^ 9 * (causeCode c.cause).toNat + (2 ^ 8 * c.done.toNat + c.ld.toNat)) := by
  have hpass := c.pass.isLt
  have hcause := (causeCode c.cause).isLt
  have hdone := c.done.toNat_lt
  have hld := c.ld.isLt
  rw [Nat.two_pow_add_eq_or_of_lt (by omega), Nat.two_pow_add_eq_or_of_lt (by omega), Nat.two_pow_add_eq_or_of_lt hld]
  simp (disch := omega) only [cursorAux, BitVec.toNat_or, BitVec.toNat_shiftLeft, BitVec.toNat_setWidth,
    BitVec.toNat_ofBool, Nat.shiftLeft_eq, Nat.mod_eq_of_lt, Nat.or_assoc, Nat.mul_comm]

/-- Settles O14: GET_CURSOR has one path, and each field of RAUX is a quotient and a remainder of the word. -/
theorem getCursorResult : Obligations.GetCursorResult := by
  intro s
  have hraux := cursorAux_toNat s.cur
  have hpass := s.cur.pass.isLt
  have hcause := (causeCode s.cur.cause).isLt
  have hdone := s.cur.done.toNat_lt
  have hld := s.cur.ld.isLt
  have hfield (start len : Nat) : ((cursorAux s.cur).extractLsb' start len).toNat =
      (cursorAux s.cur).toNat / 2 ^ start % 2 ^ len := by
    rw [BitVec.extractLsb'_toNat, Nat.shiftRight_eq_div_pow]
  refine ⟨cursorAux s.cur, rfl, BitVec.eq_of_toNat_eq ?pass, BitVec.eq_of_toNat_eq ?zeros, ?cause, ?done,
    BitVec.eq_of_toNat_eq ?ld⟩
  case pass => rw [hfield]; omega
  case zeros => rw [hfield]; change _ = 0; omega
  case cause =>
    calc ((cursorAux s.cur).extractLsb' 9 3).toNat
        = (causeCode s.cur.cause).toNat := by rw [hfield]; omega
      _ = _ := by cases s.cur.cause <;> rfl
  case done =>
    rw [BitVec.getLsbD, Nat.testBit_eq_decide_div_mod_eq, show (cursorAux s.cur).toNat / 2 ^ 8 % 2 = s.cur.done.toNat by omega]
    cases s.cur.done <;> rfl
  case ld => rw [hfield]; omega

/-! ## The accessors -/

/-- A command that only reads its slot, on an occupied one (60_exceptions.md R122): the whole next state. -/
theorem checkSlot_finish_occupied {n : Nat} {s : State} {sl : Slot} (hs : s.slots[n]? = some sl) (d : Slot → BitVec 64)
    (x : Slot → BitVec 32) :
    checkSlot n (beginCommand s) (fun sl => finish .ok (d sl) (x sl)) =
      { s with status := 0x00, rdata := d sl, raux := x sl, trace := [] } := by
  rw [checkSlot_occupied (s := beginCommand s) hs]
  rfl

/-- Settles O32. -/
theorem getTypeResult : Obligations.GetTypeResult := by
  intro s n sl hs
  rw [exec, execGetType, checkSlot_finish_occupied hs]
  cases sl.type <;> rfl

/-- Settles O33. -/
theorem getTypeStrResult : Obligations.GetTypeStrResult := by
  intro s n sl hs
  rw [exec, execGetTypeStr, checkSlot_finish_occupied hs]
  cases sl.type <;> rfl

theorem zextBit_eq (b : Bool) : zextBit b = if b then 1 else 0 := by
  cases b <;> rfl

/-- Settles O36. -/
theorem getStateResult : Obligations.GetStateResult := by
  intro s n sl hs
  rw [exec, execGetState, checkSlot_finish_occupied hs, zextBit_eq]
  cases sl.state <;> rfl

/-! ## The checks -/

/-- A scratchpad is its nine bytes. -/
theorem padBytes_all_zero_iff (sp : Scratchpad) :
    ((padBytes sp).all fun b => b == 0x00) = true ↔ sp = ⟨0, 0, 0, 0, 0, 0, 0, 0, 0⟩ := by
  cases sp
  simp [padBytes]

theorem scratchpadOk_iff (p : Params) (sp : Scratchpad) :
    scratchpadOk p sp = true ↔
      crc8 p [sp.b0, sp.b1, sp.b2, sp.b3, sp.b4, sp.b5, sp.b6, sp.b7] = sp.b8 ∧ sp ≠ ⟨0, 0, 0, 0, 0, 0, 0, 0, 0⟩ := by
  rw [scratchpadOk, Bool.and_eq_true, beq_iff_eq, Bool.not_eq_true', ← Bool.not_eq_true, padBytes_all_zero_iff]

/-- Settles O57: the two checks by their definition; the CRC-8 of eight 0xFF bytes is 0xC9 (42_decoder.md R107). -/
theorem scratchpadCheckRejectsSilentBuses : Obligations.ScratchpadCheckRejectsSilentBuses := by
  refine ⟨fun p a => beq_iff_eq, scratchpadOk_iff, fun p hp => ?_⟩
  have hcrc : dallasCrc8 (List.replicate 8 0xFF) ≠ 0xFF := by decide +kernel
  rw [← Bool.not_eq_true, scratchpadOk_iff, crc8, hp]
  exact fun h => hcrc h.1

end Sys2Proof.Machine
end

section
/-! PROOFS. RETRIEVE_DATA with a scratchpad that does not decode (41_device.md R103), and SET_RESOLUTION on a sensor that takes
it (R92, R96 to R98). -/

namespace Sys2Proof.Machine

/-! ## A scratchpad that does not decode -/

/-- A DS18S20 whose COUNT_PER_C byte is 0 (42_decoder.md R116). -/
theorem storeReading_noDecode {u : State} {n : Nat} {sl : Slot} {sp : Scratchpad} (ht : sl.type = .ds18s20)
    (hok : scratchpadOk u.params sp = true) (hcpc : padByte sp (countPerCIndex u.params.layout) = 0) :
    storeReading n sl sp u = { u with status := 0x03, rdata := 0, raux := 0 } := by
  simp [storeReading, hok, decodeTemp, ht, decodeS20, hcpc, raise, finish, statusCode]

/-- Settles O46: the bus calls leave the slot READY, and nothing is stored. -/
theorem retrieveKeepsTheTemperatureOnADecodeFailure : Obligations.RetrieveKeepsTheTemperatureOnADecodeFailure := by
  intro s n sl p q ps bits sp rest hs ht he hok hz
  have hcpc : padByte sp (countPerCIndex s.params.layout) = 0 := by
    rw [← hz]
    cases s.params.layout <;> rfl
  exact (exec_retrieveData_answers hs (by simp [ht]) he).trans (congrArg _ (storeReading_noDecode ht hok hcpc))

/-! ## SET_RESOLUTION -/

/-- RES holds exactly the numbers 9..12 (10_state.md R23). -/
theorem resolutionOf_resBits (r : Resolution) : resolutionOf (resBits r) = some r := by
  cases r <;> rfl

theorem exists_resBits {bits : Nat} (hlo : 9 ≤ bits) (hhi : bits ≤ 12) : ∃ r, bits = resBits r := by
  interval_cases bits
  exacts [⟨.r9, rfl⟩, ⟨.r10, rfl⟩, ⟨.r11, rfl⟩, ⟨.r12, rfl⟩]

/-- The configuration byte of 30_encoding.md R63, its shift written as a product. -/
theorem configByte_eq (r : Resolution) : configByte r = BitVec.ofNat 8 ((resBits r - 9) * 32 + 31) := by
  cases r <;> rfl

/-- The start of a transaction, in every environment (41_device.md R92, R96). -/
theorem matchRom_matchTrace (a : Addr) (s : State) : (matchRom a s).trace = s.trace ++ matchTrace (busReset s).1 a := by
  rw [matchRom_trace]
  simp [matchTrace, addrBytes, addrByte, cmdMatchRom, List.range_succ]

/-- The 14 calls of SET_RESOLUTION (41_device.md R92). -/
theorem writeConfig_trace (a : Addr) (r : Resolution) (s : State) :
    (writeConfig a r s).trace = s.trace ++ matchTrace (busReset s).1 a ++
      [.writeByte 0x4E, .writeByte s.params.wsTh, .writeByte s.params.wsTl, .writeByte (configByte r)] := by
  rw [writeConfig, busWriteBytes_trace, matchRom_matchTrace]
  rfl

/-- SET_RESOLUTION on a sensor that takes it, the range being 9..12 (41_device.md R92, R97). -/
theorem exec_setResolution_sensor {s : State} {n : Nat} {sl : Slot} (hs : s.slots[n]? = some sl)
    (ht : sl.type = .ds18b20 ∨ sl.type = .ds1822) (r : Resolution) :
    exec (.setResolution n (resBits r)) s =
      .next (finish .ok 0 0 { writeConfig sl.addr r (beginCommand s) with
        slots := s.slots.set n { sl with res := r, state := .configured } }) := by
  have hslots : (writeConfig sl.addr r (beginCommand s)).slots = s.slots := (writeConfig_sameBlock _ _ _).slots
  rw [exec, execSetResolution, checkSlot_occupied (s := beginCommand s) hs]
  rcases ht with ht | ht <;>
    simp only [resolutionOf_resBits, setResolutionOn, ht, updateSlot, hslots, modify_occupied hs]

/-- Settles O38: the bus calls leave the block alone, and then the slot takes the resolution. -/
theorem setResolutionConfiguresTheSensor : Obligations.SetResolutionConfiguresTheSensor := by
  intro s n bits sl r hs ht hr
  have hbits : bits = resBits r := by
    rcases hr with ⟨rfl, rfl⟩ | ⟨rfl, rfl⟩ | ⟨rfl, rfl⟩ | ⟨rfl, rfl⟩ <;> rfl
  subst hbits
  have hblock : SameBlock (beginCommand s) (writeConfig sl.addr r (beginCommand s)) := writeConfig_sameBlock _ _ _
  refine ⟨_, (busReset (beginCommand s)).1, exec_setResolution_sensor hs ht r, rfl, rfl, rfl, rfl, ?_,
    hblock.params, hblock.cur, hblock.cmd, hblock.inputs⟩
  rw [← configByte_eq]
  exact writeConfig_trace sl.addr r (beginCommand s)

/-- GET_RESOLUTION on an occupied slot (41_device.md R90). -/
theorem exec_getResolution_occupied {s : State} {n : Nat} {sl : Slot} (hs : s.slots[n]? = some sl) :
    exec (.getResolution n) s =
      .next { s with status := 0x00, rdata := BitVec.ofNat 64 (resBits sl.res), raux := 0, trace := [] } := by
  rw [exec, execGetResolution, checkSlot_finish_occupied hs]

/-- Settles O42: the slot keeps the resolution for GET_RESOLUTION, and the sensors of its address take the three bytes. -/
theorem setResolutionRoundTrip : Obligations.SetResolutionRoundTrip := by
  intro s n bits sl hs ht hlo hhi
  obtain ⟨r, rfl⟩ := exists_resBits hlo hhi
  have hset : (s.slots.set n { sl with res := r, state := .configured })[n]? =
      some { sl with res := r, state := .configured } :=
    List.getElem?_set_self (List.getElem?_eq_some_iff.mp hs).1
  refine ⟨_, _, configByte r, exec_setResolution_sensor hs ht r, exec_getResolution_occupied hset, rfl, ?bits,
    configByte_eq r, ?cfg, ?bus⟩
  case bits => cases r <;> rfl
  case cfg => cases r <;> rfl
  case bus =>
    intro bus hbus
    obtain ⟨bus', henv, hsensors⟩ := writeConfig_env_reference (s := beginCommand s) hbus sl.addr r
    refine ⟨bus', henv, ?_⟩
    rw [hsensors, List.map_map, List.map_map]
    refine List.map_congr_left fun d _ => ?_
    by_cases hd : d.addr = sl.addr <;> simp [hd]

end Sys2Proof.Machine
end

section
/-! PROOFS. ENUMERATE on the reference bus (40_enumeration.md R80, R81; 30_encoding.md R65): what a pass still has to find, one SEARCH
of the pass, and the pass as a whole. -/

namespace Sys2Proof.Machine

/-! ## The host's loop -/

/-- The host's write of a command's own word runs the command (30_encoding.md R48). -/
theorem runWord_encode {i : Instr} (h : i.wf = true) (s : State) : runWord (encode i) s = exec i { s with cmd := encode i } := by
  simp only [runWord, decodeOfEncode i h]

theorem searchWhileOk_found {s t : State} (n : Nat) (h : runWord (encode .search) s = .next t) (hok : t.status = 0x00) :
    searchWhileOk (n + 1) s = (t.rdata :: (searchWhileOk n t).1, (searchWhileOk n t).2) := by
  simp [searchWhileOk, h, hok, statusCode]

theorem searchWhileOk_end {s t : State} (n : Nat) (h : runWord (encode .search) s = .next t) (hno : t.status ≠ 0x00) :
    searchWhileOk (n + 1) s = ([], t) := by
  simp only [searchWhileOk, h]
  exact if_neg hno

/-- The state after the RESET_SEARCH that begins ENUMERATE (30_encoding.md R65, 40_enumeration.md R66). -/
def passStart (s : State) : State :=
  finish .ok 0 0 { beginCommand { s with cmd := encode .resetSearch } with cur := Cursor.initial }

/-- ENUMERATE is RESET_SEARCH and then its loop (30_encoding.md R65). -/
theorem enumerate_eq (n : Nat) (s : State) : enumerate n s = searchWhileOk n (passStart s) := by
  rw [enumerate, runWord_encode rfl]
  rfl

/-! ## Where a pass stands -/

/-- `lz` is the last conflict of the address `a` that took 0, among the addresses `as` (40_enumeration.md R73). -/
def LastZeroBranch (as : List Addr) (a : Addr) (lz : BitVec 8) : Prop :=
  ∃ j < 64, lz = BitVec.ofNat 8 j ∧ ZeroBranch as a j ∧ ∀ k, j < k → k < 64 → ¬ZeroBranch as a k

/-- From the cursor `c`, a pass among the addresses `as` has `rest` still to find: all of them at its start, and those above the
last one found after that (40_enumeration.md R80). -/
def StillToFind (as : List Addr) (c : Cursor) (rest : List Addr) : Prop :=
  (c.ld.toInt = -1 ∧ ∀ d, d ∈ rest ↔ d ∈ as) ∨
  (c.la ∈ as ∧ LastZeroBranch as c.la c.ld ∧ ∀ d, d ∈ rest ↔ d ∈ as ∧ orderKey c.la < orderKey d)

/-- A pass that is not over, on a reference bus whose sensors have the addresses `as`: `rest`, in ascending K, is still to find. -/
structure PassAt (as rest : List Addr) (s : State) : Prop where
  notDone : s.cur.done = false
  bus : ∃ r, s.env = .reference r ∧ r.sensors.map (·.addr) = as
  toFind : StillToFind as s.cur rest
  ascending : rest.Pairwise fun a b => orderKey a < orderKey b

/-- An address has a conflict that took 0 iff it is not the greatest. -/
theorem exists_zeroBranch_iff {as : List Addr} {a : Addr} :
    (∃ j < 64, ZeroBranch as a j) ↔ ∃ d ∈ as, orderKey a < orderKey d := by
  constructor
  · rintro ⟨j, hj, ha, d, hd, hag, hdj⟩
    exact ⟨d, hd, (orderKey_lt_iff a d).mpr ⟨j, hj, hag.symm, ha, hdj⟩⟩
  · rintro ⟨d, hd, hlt⟩
    obtain ⟨j, hj, hag, ha, hdj⟩ := (orderKey_lt_iff a d).mp hlt
    exact ⟨j, hj, ha, d, hd, hag.symm, hdj⟩

/-- The address that a search walks to is the least one still to find. -/
theorem StillToFind.least {as rest : List Addr} {c : Cursor} {b : Addr} (h : StillToFind as c rest) (hb : b ∈ as)
    (hconf : ∀ j < 64, ∀ d ∈ as, AgreeBelow j d b → addrBit d j ≠ addrBit b j → addrBit b j = conflictDir c j) :
    b ∈ rest ∧ ∀ d ∈ rest, orderKey b ≤ orderKey d := by
  rcases h with ⟨hld, hrest⟩ | ⟨hla, ⟨j, hj, hld, hz, hlast⟩, hrest⟩
  · exact ⟨(hrest b).mpr hb, fun d hd => search_first hld hconf d ((hrest d).mp hd)⟩
  · obtain ⟨habove, hleast⟩ := search_next hj hld hla hz hlast hconf
    refine ⟨(hrest b).mpr ⟨hb, habove⟩, fun d hd => ?_⟩
    obtain ⟨hd, hlt⟩ := (hrest d).mp hd
    exact hleast d hd hlt

/-- What is still to find is on the bus. -/
theorem StillToFind.mem {as rest : List Addr} {c : Cursor} {d : Addr} (h : StillToFind as c rest) (hd : d ∈ rest) : d ∈ as := by
  rcases h with ⟨-, hrest⟩ | ⟨-, -, hrest⟩
  · exact (hrest d).mp hd
  · exact ((hrest d).mp hd).1

/-- What is still to find is what is above the one found next. -/
theorem StillToFind.tail {as rest : List Addr} {c : Cursor} {a : Addr} (h : StillToFind as c (a :: rest))
    (hasc : (a :: rest).Pairwise fun a b => orderKey a < orderKey b) (d : Addr) :
    d ∈ rest ↔ d ∈ as ∧ orderKey a < orderKey d := by
  have hhead : ∀ d ∈ rest, orderKey a < orderKey d := (List.pairwise_cons.mp hasc).1
  have hall : ∀ d ∈ as, orderKey a < orderKey d → d ∈ a :: rest := by
    rcases h with ⟨-, hrest⟩ | ⟨-, -, hrest⟩
    · exact fun d hd _ => (hrest d).mpr hd
    · exact fun d hd hlt => (hrest d).mpr ⟨hd, ((hrest a).mp (List.mem_cons_self)).2.trans hlt⟩
  refine ⟨fun hd => ⟨h.mem (List.mem_cons_of_mem a hd), hhead d hd⟩, fun ⟨hd, hlt⟩ => ?_⟩
  refine (List.mem_cons.mp (hall d hd hlt)).resolve_left ?_
  rintro rfl
  exact lt_irrefl _ hlt

/-! ## One SEARCH of the pass -/

/-- SEARCH walks to the next address still to find, and leaves the block and the sensors' addresses alone before its check; SEQ.LZ
says whether the address is the last one (40_enumeration.md R73, R78). -/
theorem PassAt.execSearch_walk {as rest : List Addr} {a : Addr} {s : State} (h : PassAt as (a :: rest) s)
    (hroom : s.tblCount ≠ s.maxNumDevices) :
    ∃ q u, execSearch s = .next (searchEnd (some q, u)) ∧ SameBlock (beginCommand s) u ∧
      (∃ r, u.env = .reference r ∧ r.sensors.map (·.addr) = as) ∧ q.work = a ∧ a ∈ as ∧
      ((q.lz = 0xFF ∧ rest = []) ∨ (LastZeroBranch as a q.lz ∧ rest ≠ [])) := by
  obtain ⟨r, henv, hr⟩ := h.bus
  have hne : as ≠ [] := List.ne_nil_of_mem (h.toFind.mem List.mem_cons_self)
  obtain ⟨q, u, r', hbus, hblock, henv', hcore, hmem, hconf, hlz⟩ :=
    searchBus_reference (s := beginCommand s) henv hr hne
  obtain ⟨hq, hleast⟩ := h.toFind.least hmem hconf
  have hwork : q.work = a := by
    have hhead : ∀ d ∈ rest, orderKey a < orderKey d := (List.pairwise_cons.mp h.ascending).1
    rcases List.mem_cons.mp hq with hq | hq
    · exact hq
    · exact absurd (hleast a List.mem_cons_self) (not_le.mpr (hhead _ hq))
  refine ⟨q, u, (execSearch_bus h.notDone hroom).trans (congrArg _ hbus), hblock, ⟨r', henv', ?_⟩, hwork, hwork ▸ hmem, ?_⟩
  · have haddrs := congrArg (List.map Prod.fst) hcore
    rw [List.map_map, List.map_map] at haddrs
    exact haddrs.trans hr
  · rw [hwork] at hlz
    have habove := h.toFind.tail h.ascending
    rcases hlz with ⟨hlz, hnone⟩ | ⟨j, hj, hlz, hz, hlast⟩
    · refine .inl ⟨hlz, List.eq_nil_iff_forall_not_mem.mpr fun d hd => ?_⟩
      obtain ⟨j, hj, hz⟩ := exists_zeroBranch_iff.mpr ⟨d, (habove d).mp hd⟩
      exact hnone j hj hz
    · obtain ⟨d, hd⟩ := exists_zeroBranch_iff.mp ⟨j, hj, hz⟩
      exact .inr ⟨⟨j, hj, hlz, hz, hlast⟩, List.ne_nil_of_mem ((habove d).mpr hd)⟩

/-- A valid address is stored, and the pass goes on or has found its last device (40_enumeration.md R77, R78). -/
theorem PassAt.execSearch_found {as rest : List Addr} {a : Addr} {s : State} (h : PassAt as (a :: rest) s)
    (hroom : s.tblCount ≠ s.maxNumDevices) (hvalid : addrValid s.params a = true) :
    ∃ t, execSearch s = .next t ∧ t.status = 0x00 ∧ t.rdata = a ∧ t.params = s.params ∧ t.slots = s.slots ++ [newSlot a] ∧
      ((rest = [] ∧ t.cur.done = true ∧ t.cur.cause = .lastDevice) ∨ (rest ≠ [] ∧ PassAt as rest t)) := by
  obtain ⟨q, u, hexec, hblock, hbus, rfl, hmem, hlz⟩ := h.execSearch_walk hroom
  have hcommit : searchEnd (some q, u) = searchCommit q u := by
    simp only [searchEnd, hblock.params]
    exact if_pos hvalid
  refine ⟨searchCommit q u, hcommit ▸ hexec, rfl, rfl, hblock.params, congrArg (· ++ [newSlot q.work]) hblock.slots, ?_⟩
  rcases hlz with ⟨hlz, hrest⟩ | ⟨hlz, hrest⟩
  · refine .inl ⟨hrest, ?_, ?_⟩ <;> simp [searchCommit, committedCursor, hlz]
  · have hlz' : q.lz ≠ 0xFF := by
      obtain ⟨j, hj, hlz, -⟩ := hlz
      rw [hlz, Ne, branchPos_none, branchPos_toInt hj]
      omega
    have hcur : (searchCommit q u).cur = { s.cur with la := q.work, ld := q.lz, pass := s.cur.pass + 1 } := by
      simp only [searchCommit, finish_cur, committedCursor, hblock.cur, beginCommand_cur]
      exact if_neg hlz'
    refine .inr ⟨hrest, ?_, hbus, ?_, h.ascending.of_cons⟩
    · rw [hcur]; exact h.notDone
    · rw [hcur]; exact .inr ⟨hmem, hlz, h.toFind.tail h.ascending⟩

/-! ## The pass as a whole -/

/-- CMD plays no part in a pass. -/
theorem PassAt.withCmd {as rest : List Addr} {s : State} (h : PassAt as rest s) (w : Word) : PassAt as rest { s with cmd := w } :=
  ⟨h.notDone, h.bus, h.toFind, h.ascending⟩

/-- After the pass SEARCH ends NO_DEVICE and changes neither the cursor nor the table (40_enumeration.md R69). -/
theorem searchWhileOk_over {s : State} (n : Nat) (h : s.cur.done = true) :
    searchWhileOk (n + 1) s = ([], raise .noDevice (beginCommand { s with cmd := encode .search })) := by
  refine searchWhileOk_end n ?_ (show (0x01 : BitVec 8) ≠ 0x00 by decide)
  rw [runWord_encode rfl, exec, execSearch]
  simp [h]

/-- A pass with valid addresses still to find, and room for them, yields them in ascending K and ends LAST_DEVICE
(40_enumeration.md R81 (b)). -/
theorem PassAt.searchWhileOk_eq {as rest : List Addr} {s : State} (h : PassAt as rest s) (hne : rest ≠ [])
    (hroom : s.tblCount + rest.length ≤ s.maxNumDevices) (hvalid : ∀ a ∈ rest, addrValid s.params a = true) :
    ∃ t, searchWhileOk (rest.length + 1) s = (rest, t) ∧ t.status = 0x01 ∧ t.cur.cause = .lastDevice ∧
      t.slots.map (·.addr) = s.slots.map (·.addr) ++ rest := by
  induction rest generalizing s with
  | nil => exact absurd rfl hne
  | cons a rest ih =>
    obtain ⟨hva, hvrest⟩ := List.forall_mem_cons.mp hvalid
    have hfree : s.tblCount ≠ s.maxNumDevices := by simp at hroom; omega
    obtain ⟨t, hexec, hok, hrdata, hparams, hslots, hnext⟩ := (h.withCmd (encode .search)).execSearch_found hfree hva
    have hrun : runWord (encode .search) s = .next t := (runWord_encode rfl s).trans hexec
    rw [List.length_cons, searchWhileOk_found _ hrun hok, hrdata]
    rcases hnext with ⟨rfl, hdone, hcause⟩ | ⟨hrest, hpass⟩
    · rw [List.length_nil, searchWhileOk_over 0 hdone]
      exact ⟨_, rfl, rfl, hcause, by simp [hslots, newSlot]⟩
    · have hroom' : t.tblCount + rest.length ≤ t.maxNumDevices := by
        simp [tblCount_eq, maxNumDevices_eq, hslots, hparams] at hroom ⊢
        omega
      obtain ⟨u, hloop, hstatus, hcause, haddrs⟩ := ih hpass hrest hroom' (by rwa [hparams])
      exact ⟨u, by rw [hloop], hstatus, hcause, by simp [haddrs, hslots, newSlot]⟩

/-- Distinct addresses in ascending K. -/
theorem exists_ascending {as : List Addr} (h : as.Nodup) :
    ∃ l : List Addr, l.Perm as ∧ l.Pairwise fun a b => orderKey a < orderKey b := by
  let le (a b : Addr) : Bool := decide (orderKey a ≤ orderKey b)
  have hperm : (as.mergeSort le).Perm as := List.mergeSort_perm as le
  have hsorted : (as.mergeSort le).Pairwise fun a b => le a b = true :=
    List.pairwise_mergeSort (by simp [le]; omega) (by simp [le]; omega) as
  refine ⟨as.mergeSort le, hperm, (hsorted.and (hperm.nodup_iff.mpr h)).imp fun ⟨hle, hne⟩ => ?_⟩
  exact lt_of_le_of_ne (of_decide_eq_true hle) fun heq => hne (orderKey_inj heq)

/-- A pass begins with every address still to find (40_enumeration.md R66). -/
theorem passAt_passStart {s : State} {bus : RefBus} {l : List Addr} (henv : s.env = .reference bus)
    (hperm : l.Perm (bus.sensors.map (·.addr))) (hasc : l.Pairwise fun a b => orderKey a < orderKey b) :
    PassAt (bus.sensors.map (·.addr)) l (passStart s) :=
  ⟨rfl, ⟨bus, henv, rfl⟩, .inl ⟨rfl, fun _ => hperm.mem_iff⟩, hasc⟩

/-- Settles O28: the pass yields the addresses sorted by K. -/
theorem enumerationYieldsEveryDeviceOnceInOrder : Obligations.EnumerationYieldsEveryDeviceOnceInOrder := by
  intro s bus henv hne hnodup hroom hvalid
  obtain ⟨l, hperm, hasc⟩ := exists_ascending hnodup
  have hlen : l.length = bus.sensors.length := by rw [hperm.length_eq, List.length_map]
  have hlne : l ≠ [] := by
    rw [← List.length_pos_iff, hlen]
    exact List.length_pos_iff.mpr hne
  have hvalid' : ∀ a ∈ l, addrValid s.params a = true := by
    intro a ha
    obtain ⟨d, hd, rfl⟩ := List.mem_map.mp (hperm.mem_iff.mp ha)
    exact hvalid d hd
  rw [enumerate_eq, ← hlen]
  obtain ⟨t, hloop, hstatus, hcause, haddrs⟩ :=
    (passAt_passStart henv hperm hasc).searchWhileOk_eq hlne (hlen ▸ hroom) hvalid'
  rw [hloop]
  exact ⟨hperm, hasc, hstatus, hcause, haddrs⟩

end Sys2Proof.Machine
end

section
/-! PROOFS. RESET_SEARCH and SEARCH (40_enumeration.md R66 to R79): the ends that make no bus call, the failures, and SEARCH on any
prepared answers to its bit reads. -/

namespace Sys2Proof.Machine

/-! ## The ends without a bus call -/

/-- Settles O13: RESET_SEARCH has one path, without a bus call. -/
theorem resetSearchResult : Obligations.ResetSearchResult := fun _ => rfl

/-- Settles O15: `CUR.DONE` is looked at first. -/
theorem searchAfterThePassIsOver : Obligations.SearchAfterThePassIsOver := by
  intro s hdone
  rw [exec, execSearch, if_pos hdone]
  rfl

/-- Settles O16: TBL.COUNT is looked at before the bus. -/
theorem searchWithAFullTable : Obligations.SearchWithAFullTable := by
  intro s hdone hfull
  rw [exec, execSearch, if_neg (by simp [hdone]), if_pos (show s.tblCount = s.maxNumDevices from hfull)]
  rfl

/-! ## The two ways SEARCH ends once it is on the bus -/

/-- `fail(c)` field by field (40_enumeration.md R76). -/
theorem searchFail_eq (c : PassCause) (s : State) :
    searchFail c s =
      { s with cur := { s.cur with done := true, cause := c }, status := 0x01, rdata := 0, raux := 0 } := rfl

/-- The cursor of a pass that was not over, after a device: it is over iff SEQ.LZ is −1 (40_enumeration.md R77, R78). -/
theorem committedCursor_eq {c : Cursor} (hdone : c.done = false) (q : SearchSeq) :
    committedCursor c q =
      { la := q.work, ld := q.lz, done := decide (q.lz.toInt = -1),
        cause := if q.lz.toInt = -1 then .lastDevice else c.cause, pass := c.pass + 1 } := by
  unfold committedCursor
  by_cases hlz : q.lz = 0xFF
  · have hlast := (branchPos_none q.lz).mp hlz
    simp only [if_pos hlz, if_pos hlast, decide_eq_true hlast]
  · have hmore := mt (branchPos_none q.lz).mpr hlz
    simp only [if_neg hlz, if_neg hmore, decide_eq_false hmore, hdone]

/-- `commit` field by field (40_enumeration.md R77). -/
theorem searchCommit_eq {s : State} (hdone : s.cur.done = false) (q : SearchSeq) :
    searchCommit q s =
      { s with
        slots := s.slots ++ [{ addr := q.work, type := classify (q.work.extractLsb' 0 8), res := .r12, temp := 0,
                               tvalid := false, state := .discovered }],
        cur := { la := q.work, ld := q.lz, done := decide (q.lz.toInt = -1),
                 cause := if q.lz.toInt = -1 then .lastDevice else s.cur.cause, pass := s.cur.pass + 1 },
        status := 0x00, rdata := q.work, raux := BitVec.ofNat 32 s.slots.length } := by
  rw [searchCommit, committedCursor_eq hdone]
  rfl

/-- Settles O21: by the two ways SEARCH ends once it is on the bus. -/
theorem searchEndsInEveryEnvironment : Obligations.SearchEndsInEveryEnvironment := by
  intro s hdone hroom
  have hexec : exec .search s = .next (searchBus (beginCommand s)) := execSearch_bus hdone hroom
  have hframe := (exec_commandEnd hexec).frame
  refine ⟨_, hexec, hframe.params, hframe.cmd, hframe.inputs, ?_⟩
  rcases searchBus_cases (beginCommand s) with ⟨c, u, hc, hu, he⟩ | ⟨q, u, hu, hvalid, hlo, hhi, he⟩
  · left
    rw [he, searchFail_eq, hu.cur]
    exact ⟨c, hc, rfl, hu.slots, rfl, rfl, rfl⟩
  · right
    have hdone' : u.cur.done = false := by rw [hu.cur]; exact hdone
    rw [he, searchCommit_eq hdone', hu.cur, hu.slots]
    exact ⟨q.work, q.lz, hvalid, hlo, hhi, rfl, rfl, rfl, rfl, rfl⟩

/-- Settles O17: the presence bit is the only answer that is read. -/
theorem searchWithoutPresence : Obligations.SearchWithoutPresence := by
  intro s ps bits bytes hdone hroom henv
  have hreset := busReset_answers (s := beginCommand s) henv
  rw [exec, execSearch_bus hdone hroom, searchBus, hreset]
  rfl

/-! ## The bit steps on prepared answers -/

/-- SEQ.WORK and SEQ.LZ after the bits 0..n−1, the pairs read being `b i` and `cb i` (40_enumeration.md R68, R73). -/
def searchWalk (c : Cursor) (b cb : Nat → Bool) : Nat → SearchSeq
  | 0 => ⟨0, 0xFF⟩
  | n + 1 => (searchWalk c b cb n).take n (b n) (cb n) (direction c.la c.ld.toInt (b n) (cb n) n)

section
variable {c : Cursor} {b cb : Nat → Bool}

theorem searchAnswers_succ (n : Nat) : searchAnswers b cb (n + 1) = searchAnswers b cb n ++ [b n, cb n] := by
  simp [searchAnswers, List.range_succ]

/-- One answer to every read. -/
theorem searchAnswers_const (x : Bool) (n : Nat) :
    searchAnswers (fun _ => x) (fun _ => x) n = List.replicate (2 * n) x := by
  induction n with
  | zero => rfl
  | succ n ih => rw [searchAnswers_succ, ih, Nat.mul_succ, List.replicate_add]; rfl

theorem searchTrace_succ (dir : Nat → Bool) (n : Nat) :
    searchTrace b cb dir (n + 1) = searchTrace b cb dir n ++ [.readBit (b n), .readBit (cb n), .writeBit (dir n)] := by
  simp [searchTrace, List.range_succ]

/-- The trace of n bits has only their directions. -/
theorem searchTrace_congr {dir dir' : Nat → Bool} {n : Nat} (h : ∀ i < n, dir i = dir' i) :
    searchTrace b cb dir n = searchTrace b cb dir' n := by
  induction n with
  | zero => rfl
  | succ n ih => rw [searchTrace_succ, searchTrace_succ, ih fun i hi => h i (by omega), h n (by omega)]

/-- Each bit of SEQ.WORK is the direction taken there. -/
theorem addrBit_searchWalk {n i : Nat} (hn : n ≤ 64) (hi : i < n) :
    addrBit (searchWalk c b cb n).work i = direction c.la c.ld.toInt (b i) (cb i) i := by
  induction n with
  | zero => omega
  | succ n ih =>
    rw [searchWalk, SearchSeq.take, addrBit_setAddrBit _ (by omega)]
    split
    · next h => rw [h]
    · exact ih (by omega) (by omega)

/-- The address assembled is the one whose bits are the directions (40_enumeration.md R73). -/
theorem searchWalk_work {a : Addr} (ha : ∀ i < 64, a.getLsbD i = direction c.la c.ld.toInt (b i) (cb i) i) :
    (searchWalk c b cb 64).work = a :=
  BitVec.eq_of_getLsbD_eq fun i hi => (addrBit_searchWalk (Nat.le_refl 64) hi).trans (ha i hi).symm

/-- Bit i of `a` is a conflict that took 0 (40_enumeration.md R73). -/
abbrev TookZero (b cb : Nat → Bool) (a : Addr) (i : Nat) : Prop := b i = false ∧ cb i = false ∧ a.getLsbD i = false

/-- SEQ.LZ takes the index of a conflict that took 0 (40_enumeration.md R73). -/
theorem searchWalk_succ_lz {a : Addr} {n : Nat} (hn : a.getLsbD n = direction c.la c.ld.toInt (b n) (cb n) n) :
    (searchWalk c b cb (n + 1)).lz = if TookZero b cb a n then BitVec.ofNat 8 n else (searchWalk c b cb n).lz := by
  simp [searchWalk, SearchSeq.take, zeroConflict, TookZero, hn, and_assoc]

section
variable {a : Addr} {n : Nat} (ha : ∀ i < n, a.getLsbD i = direction c.la c.ld.toInt (b i) (cb i) i)
include ha

/-- Without a conflict that took 0, SEQ.LZ stays −1. -/
theorem searchWalk_lz_none (hnone : ∀ i < n, ¬TookZero b cb a i) : (searchWalk c b cb n).lz = 0xFF := by
  induction n with
  | zero => rfl
  | succ n ih =>
    rw [searchWalk_succ_lz (ha n (by omega)), if_neg (hnone n (by omega))]
    exact ih (fun i hi => ha i (by omega)) fun i hi => hnone i (by omega)

/-- SEQ.LZ is the last bit with a conflict that took 0. -/
theorem searchWalk_lz_last {j : Nat} (hj : j < n) (hzero : TookZero b cb a j)
    (hlast : ∀ i < n, j < i → ¬TookZero b cb a i) : (searchWalk c b cb n).lz = BitVec.ofNat 8 j := by
  induction n with
  | zero => omega
  | succ n ih =>
    rw [searchWalk_succ_lz (ha n (by omega))]
    rcases Nat.lt_succ_iff_lt_or_eq.mp hj with hjn | rfl
    · rw [if_neg (hlast n (by omega) hjn)]
      exact ih (fun i hi => ha i (by omega)) hjn fun i hi => hlast i (by omega)
    · rw [if_pos hzero]

end

/-- SEQ.LZ after the 64 bits (10_state.md R21). -/
theorem searchWalk_lz {a : Addr} {lz : BitVec 8} (ha : ∀ i < 64, a.getLsbD i = direction c.la c.ld.toInt (b i) (cb i) i)
    (hlz : IsLastZeroConflict b cb a lz) : (searchWalk c b cb 64).lz = lz := by
  rcases hlz with ⟨rfl, hnone⟩ | ⟨j, hj, rfl, hzero, hlast⟩
  · exact searchWalk_lz_none ha hnone
  · exact searchWalk_lz_last ha hj hzero hlast

/-- The first k of n bit steps on prepared answers without (1, 1), whatever the m steps after them
(40_enumeration.md R68, R73). -/
theorem searchBits_answers_below {s : State} {ps rest : List Bool} {bytes : List Byte} {k m n : Nat} (hn : k + m = n)
    (henv : s.env = .answers ps (searchAnswers b cb k ++ rest) bytes) (hpair : ∀ i < k, ¬(b i = true ∧ cb i = true)) :
    searchBits n 0 ⟨0, 0xFF⟩ s =
      searchBits m k (searchWalk s.cur b cb k)
        { s with env := .answers ps rest bytes,
                 trace := s.trace ++
                   searchTrace b cb (fun i => direction s.cur.la s.cur.ld.toInt (b i) (cb i) i) k } := by
  induction k generalizing m rest with
  | zero =>
    obtain rfl : m = n := by omega
    simp only [searchAnswers, List.range_zero, List.flatMap_nil, List.nil_append] at henv
    simp [searchTrace, searchWalk, ← henv]
  | succ k ih =>
    have hk := hpair k (by omega)
    have henv' : s.env = .answers ps (searchAnswers b cb k ++ b k :: cb k :: rest) bytes := by
      rw [henv, searchAnswers_succ, List.append_assoc]
      rfl
    rw [ih (m := m + 1) (by omega) henv' fun i hi => hpair i (by omega), searchBits_answers rfl (by simpa using hk)]
    simp only [chooseDir_eq_direction _ _ _ _ hk, searchTrace_succ, searchWalk, List.append_assoc]

/-- A bit step on the prepared answers (1, 1) (40_enumeration.md R74). -/
theorem searchBits_answers_noResponse {n i : Nat} {q : SearchSeq} {s : State} {ps rest : List Bool} {bytes : List Byte}
    (henv : s.env = .answers ps (true :: true :: rest) bytes) :
    searchBits (n + 1) i q s =
      (none, { s with env := .answers ps rest bytes, trace := s.trace ++ [.readBit true, .readBit true] }) := by
  have h1 := busReadBit_answers henv
  have h2 : busReadBit (busReadBit s).2 =
      (true, { s with env := .answers ps rest bytes, trace := s.trace ++ [.readBit true, .readBit true] }) := by
    rw [h1, busReadBit_answers rfl, List.append_assoc]
    rfl
  rw [searchBits_noResponse (by rw [h2, h1]; rfl), h2]

/-- SEARCH up to bit k on prepared answers without (1, 1) (40_enumeration.md R68, R71 to R73). -/
theorem exec_search_answers {s : State} {ps rest : List Bool} {bytes : List Byte} {k m : Nat} (hkm : k + m = 64)
    (hdone : s.cur.done = false) (hroom : s.slots.length ≠ s.params.lastSlot.val + 1)
    (henv : s.env = .answers (true :: ps) (searchAnswers b cb k ++ rest) bytes)
    (hpair : ∀ i < k, ¬(b i = true ∧ cb i = true)) :
    exec .search s = .next (searchEnd (searchBits m k (searchWalk s.cur b cb k)
      { s with env := .answers ps rest bytes,
               trace := .reset true :: .writeByte 0xF0 ::
                 searchTrace b cb (fun i => direction s.cur.la s.cur.ld.toInt (b i) (cb i) i) k })) := by
  rw [exec, execSearch_bus hdone hroom, searchBus_answers (s := beginCommand s) henv,
    searchBits_answers_below hkm rfl hpair]
  rfl

/-- SEARCH on prepared answers without (1, 1) whose directions make the address `a`, up to its check
(40_enumeration.md R73, R75). -/
theorem exec_search_assembled {s : State} {ps rest : List Bool} {bytes : List Byte} {a : Addr}
    (hdone : s.cur.done = false) (hroom : s.slots.length ≠ s.params.lastSlot.val + 1)
    (henv : s.env = .answers (true :: ps) (searchAnswers b cb 64 ++ rest) bytes)
    (hpair : ∀ i < 64, ¬(b i = true ∧ cb i = true))
    (ha : ∀ i < 64, a.getLsbD i = direction s.cur.la s.cur.ld.toInt (b i) (cb i) i) :
    exec .search s = .next (searchEnd (some ⟨a, (searchWalk s.cur b cb 64).lz⟩,
      { s with env := .answers ps rest bytes,
               trace := .reset true :: .writeByte 0xF0 :: searchTrace b cb (fun i => a.getLsbD i) 64 })) := by
  rw [exec_search_answers (m := 0) rfl hdone hroom henv hpair, searchBits, searchTrace_congr ha, ← searchWalk_work ha]

end

/-! ## SEARCH on prepared answers -/

/-- Settles O18: the walk assembles `a` and `lz`, and a valid address is committed. -/
theorem searchYieldsTheAssembledDevice : Obligations.SearchYieldsTheAssembledDevice := by
  intro s ps rest bytes b cb a lz hdone hroom henv hpair ha hlz hvalid
  rw [exec_search_assembled hdone hroom henv hpair ha, searchWalk_lz ha hlz, searchEnd]
  simp only [if_pos hvalid]
  exact congrArg _ (searchCommit_eq (by exact hdone) _)

/-- Settles O20: an invalid address fails the check. -/
theorem searchWithABadAddressCrc : Obligations.SearchWithABadAddressCrc := by
  intro s ps rest bytes b cb a hdone hroom henv hpair ha hinvalid
  rw [exec_search_assembled hdone hroom henv hpair ha, searchEnd]
  simp only [hinvalid]
  rfl

/-- Settles O19: the bits below j are walked, and the two reads of bit j end the search. -/
theorem searchWithNoResponse : Obligations.SearchWithNoResponse := by
  intro s ps rest bytes b cb j hdone hroom hj henv hpair hb hcb
  have henv' : s.env = .answers (true :: ps) (searchAnswers b cb j ++ true :: true :: rest) bytes := by
    rw [henv, searchAnswers_succ, hb, hcb, List.append_assoc]
    rfl
  rw [exec_search_answers (m := 63 - j + 1) (by omega) hdone hroom henv' hpair, searchBits_answers_noResponse rfl]
  rfl

/-- A zero register stays zero over a zero byte (42_decoder.md R107). -/
theorem crcBits_zero (n : Nat) : crcBits n 0 0 = 0 := by
  induction n with
  | zero => rfl
  | succ n ih => exact ih

/-- The default CRC-8 of zero bytes is 0 (40_enumeration.md R79). -/
theorem dallasCrc8_zeros (n : Nat) : dallasCrc8 (List.replicate n 0) = 0 := by
  induction n with
  | zero => rfl
  | succ n ih => rwa [List.replicate_succ, dallasCrc8, crcFrom, crcBits_zero]

/-- The address 0 is valid under the default CRC-8 (40_enumeration.md R79). -/
theorem addrValid_zero {p : Params} (h : p.crc = .dallasMaxim) : addrValid p 0 = true := by
  have hcrc := dallasCrc8_zeros 7
  simp only [addrValid, crc8, h]
  exact beq_iff_eq.mpr hcrc

/-- Settles O22: every bit is a conflict that takes 0, so this is SEARCH assembling the valid address 0 with SEQ.LZ 63. -/
theorem busHeldLowYieldsTheAllZeroAddress : Obligations.BusHeldLowYieldsTheAllZeroAddress := by
  intro s ps rest bytes hdone hld hroom hcrc henv
  have hdir : ∀ i < 64, (0 : Addr).getLsbD i = direction s.cur.la s.cur.ld.toInt false false i := by
    intro i _
    rw [hld, direction, if_neg (by omega), decide_eq_false (by omega)]
    exact BitVec.getLsbD_zero
  have hlz : IsLastZeroConflict (fun _ => false) (fun _ => false) 0 63 :=
    .inr ⟨63, by decide, rfl, ⟨rfl, rfl, rfl⟩, by omega⟩
  have hexec := searchYieldsTheAssembledDevice s ps rest bytes (fun _ => false) (fun _ => false) 0 63 hdone hroom
    (by rw [henv, searchAnswers_const]) (by simp) hdir hlz (addrValid_zero hcrc)
  exact ⟨_, hexec, rfl, rfl, rfl, rfl⟩

end Sys2Proof.Machine
end

section
/-! PROOFS. ENUMERATE on a reference bus without sensors, or with an invalid address (40_enumeration.md R81 (a), (c)). -/

namespace Sys2Proof.Machine

/-! ## A bus without sensors -/

/-- SEARCH on a reference bus without sensors finds no presence pulse (40_enumeration.md R71, 20_memory.md R47). -/
theorem execSearch_emptyBus {s : State} {bus : RefBus} (henv : s.env = .reference bus) (hempty : bus.sensors = [])
    (hdone : s.cur.done = false) (hroom : s.tblCount ≠ s.maxNumDevices) :
    ∃ t, execSearch s = .next t ∧ t.status = 0x01 ∧ t.cur.cause = .noPresence ∧ t.slots = s.slots := by
  have hreset := busReset_reference (s := beginCommand s) henv
  rw [hempty] at hreset
  rw [execSearch_bus hdone hroom, searchBus, hreset]
  exact ⟨_, rfl, rfl, rfl, rfl⟩

/-- Settles O27: the first SEARCH of the pass finds no presence pulse. -/
theorem emptyBusEnumeration : Obligations.EmptyBusEnumeration := by
  intro s bus henv hempty hroom
  obtain ⟨t, hexec, hstatus, hcause, hslots⟩ :=
    execSearch_emptyBus (s := { passStart s with cmd := encode .search }) henv hempty rfl (Nat.ne_of_lt hroom)
  have hrun : runWord (encode .search) (passStart s) = .next t := (runWord_encode rfl _).trans hexec
  rw [enumerate_eq, searchWhileOk_end 0 hrun (by rw [hstatus]; decide)]
  exact ⟨rfl, hstatus, hcause, hslots⟩

/-! ## A bus with an invalid address -/

/-- An invalid address ends the pass (40_enumeration.md R75). -/
theorem PassAt.execSearch_invalid {as rest : List Addr} {a : Addr} {s : State} (h : PassAt as (a :: rest) s)
    (hroom : s.tblCount ≠ s.maxNumDevices) (hinvalid : addrValid s.params a = false) :
    ∃ t, execSearch s = .next t ∧ t.status = 0x01 ∧ t.cur.cause = .addressCrc := by
  obtain ⟨q, u, hexec, hblock, -, rfl, -⟩ := h.execSearch_walk hroom
  have hfail : searchEnd (some q, u) = searchFail .addressCrc u := by
    simp [searchEnd, hblock.params, hinvalid]
  exact ⟨_, hexec.trans (congrArg _ hfail), rfl, rfl⟩

/-- A pass with an invalid address still to find, and room for all, yields the valid ones before it and ends ADDRESS_CRC
(40_enumeration.md R81 (c)). -/
theorem PassAt.searchWhileOk_invalid {as rest : List Addr} {s : State} (h : PassAt as rest s)
    (hroom : s.tblCount + rest.length ≤ s.maxNumDevices) (hinvalid : ∃ a ∈ rest, addrValid s.params a = false) :
    ∃ t, searchWhileOk (rest.length + 1) s = (rest.takeWhile (addrValid s.params), t) ∧ t.status = 0x01 ∧
      t.cur.cause = .addressCrc := by
  induction rest generalizing s with
  | nil => simp at hinvalid
  | cons a rest ih =>
    have hfree : s.tblCount ≠ s.maxNumDevices := by simp at hroom; omega
    have hcmd := h.withCmd (encode .search)
    cases hva : addrValid s.params a with
    | false =>
      obtain ⟨t, hexec, hstatus, hcause⟩ := hcmd.execSearch_invalid hfree hva
      have hrun : runWord (encode .search) s = .next t := (runWord_encode rfl s).trans hexec
      rw [searchWhileOk_end _ hrun (by rw [hstatus]; decide), List.takeWhile_cons_of_neg (by simp [hva])]
      exact ⟨t, rfl, hstatus, hcause⟩
    | true =>
      have hlater : ∃ d ∈ rest, addrValid s.params d = false := by
        obtain ⟨d, hd, hvd⟩ := hinvalid
        rcases List.mem_cons.mp hd with rfl | hd
        · simp [hva] at hvd
        · exact ⟨d, hd, hvd⟩
      obtain ⟨t, hexec, hok, hrdata, hparams, hslots, hnext⟩ := hcmd.execSearch_found hfree hva
      have hrun : runWord (encode .search) s = .next t := (runWord_encode rfl s).trans hexec
      replace hparams : t.params = s.params := hparams
      rcases hnext with ⟨rfl, -⟩ | ⟨-, hpass⟩
      · simp at hlater
      have hroom' : t.tblCount + rest.length ≤ t.maxNumDevices := by
        simp [tblCount_eq, maxNumDevices_eq, hslots, hparams] at hroom ⊢
        omega
      obtain ⟨u, hloop, hend⟩ := ih hpass hroom' (by rwa [hparams])
      rw [List.length_cons, searchWhileOk_found _ hrun hok, hloop, hrdata, hparams, List.takeWhile_cons_of_pos hva]
      exact ⟨u, rfl, hend⟩

/-- In ascending K, the addresses before the first invalid one are those below every invalid one. -/
theorem mem_takeWhile_ascending {valid : Addr → Bool} {l : List Addr} (hasc : l.Pairwise fun a b => orderKey a < orderKey b)
    (a : Addr) : a ∈ l.takeWhile valid ↔ a ∈ l ∧ ∀ d ∈ l, valid d = false → orderKey a < orderKey d := by
  induction l with
  | nil => simp
  | cons x l ih =>
    obtain ⟨hhead, htail⟩ := List.pairwise_cons.mp hasc
    cases hx : valid x with
    | false =>
      rw [List.takeWhile_cons_of_neg (by simp [hx])]
      refine ⟨nofun, fun ⟨ha, hbelow⟩ => ?_⟩
      have hax : orderKey a < orderKey x := hbelow x List.mem_cons_self hx
      rcases List.mem_cons.mp ha with rfl | ha
      · exact absurd hax (lt_irrefl _)
      · exact absurd hax (lt_asymm (hhead a ha))
    | true =>
      rw [List.takeWhile_cons_of_pos hx, List.mem_cons, ih htail, List.mem_cons, List.forall_mem_cons]
      constructor
      · rintro (rfl | ⟨ha, hbelow⟩)
        · exact ⟨.inl rfl, by simp [hx], fun d hd _ => hhead d hd⟩
        · exact ⟨.inr ha, by simp [hx], hbelow⟩
      · rintro ⟨rfl | ha, -, hbelow⟩
        · exact .inl rfl
        · exact .inr ⟨ha, hbelow⟩

/-- Settles O29: the pass yields the addresses sorted by K up to the first invalid one. -/
theorem enumerationStopsAtTheFirstInvalidAddress : Obligations.EnumerationStopsAtTheFirstInvalidAddress := by
  intro s bus henv hnodup hroom hinvalid
  obtain ⟨l, hperm, hasc⟩ := exists_ascending hnodup
  have hlen : l.length = bus.sensors.length := by rw [hperm.length_eq, List.length_map]
  have hinvalid' : ∃ a ∈ l, addrValid s.params a = false := by
    obtain ⟨d, hd, hvd⟩ := hinvalid
    exact ⟨d.addr, hperm.mem_iff.mpr (List.mem_map_of_mem hd), hvd⟩
  obtain ⟨t, hloop, hend⟩ := (passAt_passStart henv hperm hasc).searchWhileOk_invalid (hlen ▸ hroom) hinvalid'
  rw [enumerate_eq, ← hlen, hloop]
  refine ⟨fun a => (mem_takeWhile_ascending hasc a).trans ?_, hasc.sublist (List.takeWhile_sublist _), hend⟩
  simp only [hperm.mem_iff, List.forall_mem_map]
  rfl

end Sys2Proof.Machine
end

section
/-! PROOFS. The commands of 41_device.md that make no bus call: the table commands (R85, R86), the accessors (R89, R90), the ends of
SET_RESOLUTION and RETRIEVE_DATA before the bus (R93 to R95, R100), and the temperature outputs (R105, R106). -/

namespace Sys2Proof.Machine

/-! ## The table commands -/

/-- Settles O30: CLEAR_TABLE has one path. -/
theorem clearTableResult : Obligations.ClearTableResult := fun _ => rfl

/-- Settles O31: GET_SLOT_COUNT has one path. -/
theorem getSlotCountResult : Obligations.GetSlotCountResult := fun _ => rfl

/-! ## The address and the resolution -/

/-- Settles O34. -/
theorem getAddressResult : Obligations.GetAddressResult := by
  intro s n sl hs
  rw [exec, execGetAddress, checkSlot_finish_occupied hs]

/-- Settles O35: RES as a number of bits. -/
theorem getResolutionResult : Obligations.GetResolutionResult := by
  intro s n sl hs
  rw [exec_getResolution_occupied hs]
  cases sl.res <;> rfl

/-! ## The temperature outputs -/

/-- Settles O49. -/
theorem getCelsiusResult : Obligations.GetCelsiusResult := by
  intro s n sl hs
  rw [exec, execGetCelsius, checkSlot_finish_occupied hs, zextBit_eq]
  rfl

/-- 64 bits hold the Fahrenheit output of every temperature (42_decoder.md R119). -/
theorem toInt_sext64_fahrenheit80 (t : Temp16) : (sext64 (fahrenheit80 t.toInt)).toInt = 9 * t.toInt + 2560 := by
  have hlo := BitVec.le_toInt t
  have hhi := BitVec.toInt_lt (x := t)
  rw [sext64, fahrenheit80, BitVec.toInt_ofInt_eq_self] <;> omega

/-- Settles O50. -/
theorem getFahrenheitResult : Obligations.GetFahrenheitResult := by
  intro s n sl hs
  refine ⟨_, toInt_sext64_fahrenheit80 sl.temp, ?_⟩
  rw [exec, execGetFahrenheit, checkSlot_finish_occupied hs, zextBit_eq]

/-! ## SET_RESOLUTION before the bus -/

/-- No resolution has fewer than 9 or more than 12 bits (10_state.md R23). -/
theorem resolutionOf_eq_none {bits : Nat} (h : bits < 9 ∨ 12 < bits) : resolutionOf bits = none := by
  unfold resolutionOf
  split
  case h_5 => rfl
  all_goals omega

/-- Settles O39: the range is checked before the slot's type is looked at. -/
theorem setResolutionOutOfRange : Obligations.SetResolutionOutOfRange := by
  intro s n bits sl hs hbits
  rw [exec, execSetResolution, checkSlot_occupied (s := beginCommand s) hs, resolutionOf_eq_none hbits]
  rfl

/-- SET_RESOLUTION in range goes on with the slot's type (41_device.md R92, R94, R95). -/
theorem exec_setResolution_inRange {s : State} {n bits : Nat} {sl : Slot} (hs : s.slots[n]? = some sl) (hlo : 9 ≤ bits)
    (hhi : bits ≤ 12) : ∃ r, exec (.setResolution n bits) s = .next (setResolutionOn n r sl (beginCommand s)) := by
  obtain ⟨r, rfl⟩ := exists_resBits hlo hhi
  refine ⟨r, ?_⟩
  simp only [exec, execSetResolution, checkSlot_occupied (s := beginCommand s) hs, resolutionOf_resBits]

/-- Settles O40. -/
theorem setResolutionOnDs18s20 : Obligations.SetResolutionOnDs18s20 := by
  intro s n bits sl hs ht hlo hhi
  obtain ⟨r, hexec⟩ := exec_setResolution_inRange hs hlo hhi
  rw [hexec, setResolutionOn, ht]
  rfl

/-- Settles O41. -/
theorem setResolutionOnUnknown : Obligations.SetResolutionOnUnknown := by
  intro s n bits sl hs ht hlo hhi
  obtain ⟨r, hexec⟩ := exec_setResolution_inRange hs hlo hhi
  rw [hexec, setResolutionOn, ht]
  rfl

/-! ## RETRIEVE_DATA before the bus -/

/-- Settles O47. -/
theorem retrieveOnUnknown : Obligations.RetrieveOnUnknown := by
  intro s n sl hs ht
  rw [exec, execRetrieveData, checkSlot_occupied (s := beginCommand s) hs, ht]
  rfl

end Sys2Proof.Machine
end

section
/-! PROOFS. RETRIEVE_DATA in every environment (41_device.md R99 to R104): what it reads, and what it makes of a scratchpad by the two
checks; a bad scratchpad (R102), and a sensor missing from the reference bus (R96; 20_memory.md R47). -/

namespace Sys2Proof.Machine

/-! ## The bus calls in every environment -/

/-- The 31 calls and the Delay of RETRIEVE_DATA, whatever the bus answers (41_device.md R99, R101). -/
theorem convertAndRead_trace (sl : Slot) (s : State) :
    ∃ p q, (convertAndRead sl s).2.trace = s.trace ++ retrieveTrace sl p q (convertAndRead sl s).1 := by
  refine ⟨(busReset s).1,
    (busReset (busDelay (tconv sl.res) (busWriteByte cmdConvertT (matchRom sl.addr s)))).1, ?_⟩
  simp only [convertAndRead, readScratchpad_trace, busWriteByte_trace, busDelay_trace, matchRom_matchTrace, retrieveTrace,
    tconv_eq, cmdConvertT, cmdReadScratchpad, List.append_assoc, List.cons_append, List.nil_append]

/-- RETRIEVE_DATA on slot n before its first bus call: STATE is CONVERTING (41_device.md R104). -/
def retrieveStart (n : Nat) (s : State) : State := updateSlot n (fun x => { x with state := .converting }) (beginCommand s)

/-- The scratchpad that RETRIEVE_DATA on slot n reads, and the state it checks it in: STATE is READY (41_device.md R99, R104). -/
def retrieveRead (n : Nat) (sl : Slot) (s : State) : Scratchpad × State :=
  ((convertAndRead sl (retrieveStart n s)).1,
    updateSlot n (fun x => { x with state := .ready }) (convertAndRead sl (retrieveStart n s)).2)

theorem exec_retrieveData_known {s : State} {n : Nat} {sl : Slot} (hs : s.slots[n]? = some sl) (ht : sl.type ≠ .unknown) :
    exec (.retrieveData n) s = .next (storeReading n sl (retrieveRead n sl s).1 (retrieveRead n sl s).2) :=
  execRetrieveData_known hs ht

theorem retrieveRead_params (n : Nat) (sl : Slot) (s : State) : (retrieveRead n sl s).2.params = s.params := by
  rw [retrieveRead, updateSlot_params, (convertAndRead_sameBlock sl (retrieveStart n s)).params]
  rfl

theorem retrieveRead_slots {s : State} {n : Nat} {sl : Slot} (hs : s.slots[n]? = some sl) :
    (retrieveRead n sl s).2.slots = s.slots.set n { sl with state := .ready } := by
  rw [retrieveRead, updateSlot_slots, (convertAndRead_sameBlock sl (retrieveStart n s)).slots, retrieveStart, updateSlot_slots,
    modify_modify, beginCommand_slots, modify_occupied hs]
  rfl

theorem retrieveRead_trace (n : Nat) (sl : Slot) (s : State) :
    ∃ p q, (retrieveRead n sl s).2.trace = retrieveTrace sl p q (retrieveRead n sl s).1 :=
  convertAndRead_trace sl (retrieveStart n s)

/-! ## What becomes of the scratchpad -/

/-- A scratchpad that fails its check (41_device.md R102). -/
theorem storeReading_bad {u : State} {n : Nat} {sl : Slot} {sp : Scratchpad} (hbad : scratchpadOk u.params sp = false) :
    storeReading n sl sp u = { u with status := 0x02, rdata := 0, raux := 0 } := by
  rw [storeReading, hbad]
  rfl

/-- A good scratchpad that does not decode (41_device.md R103). -/
theorem storeReading_undecoded {u : State} {n : Nat} {sl : Slot} {sp : Scratchpad} (hok : scratchpadOk u.params sp = true)
    (hv : decodedReading u.params sl sp = none) :
    storeReading n sl sp u = { u with status := 0x03, rdata := 0, raux := 0 } := by
  rw [storeReading, if_pos hok, decodeTemp_eq, hv]
  rfl

/-- The scratchpad is dealt with after the last bus call (41_device.md R99). -/
theorem storeReading_trace (n : Nat) (sl : Slot) (sp : Scratchpad) (u : State) : (storeReading n sl sp u).trace = u.trace := by
  rcases storeReading_cases n sl sp u with ⟨-, h⟩ | ⟨-, -, h⟩ | ⟨v, -, -, h⟩ <;> rw [h] <;> rfl

/-- Settles O43: the bus calls leave the slot READY, and the two checks of the scratchpad decide what is stored. -/
theorem retrieveFollowsTheScratchpadItReads : Obligations.RetrieveFollowsTheScratchpadItReads := by
  intro s n sl hs ht
  have hexec := exec_retrieveData_known hs ht
  have hparams := retrieveRead_params n sl s
  have hslots := retrieveRead_slots hs
  obtain ⟨p, q, htrace⟩ := retrieveRead_trace n sl s
  obtain ⟨hframe, -, -⟩ := exec_commandEnd hexec
  have hcur := onlySearchCommandsWriteTheCursor _ _ _ rfl hexec
  refine ⟨_, (retrieveRead n sl s).1, p, q, hexec, (storeReading_trace ..).trans htrace, hframe.params, hcur, hframe.cmd,
    hframe.inputs, ?_⟩
  generalize retrieveRead n sl s = r at hparams hslots
  obtain ⟨sp, u⟩ := r
  split
  next hok =>
    rw [← hparams] at hok ⊢
    split
    next v hv =>
      have hready : u.slots[n]? = some { sl with state := .ready } := by
        rw [hslots]
        exact List.getElem?_set_self (List.getElem?_eq_some_iff.mp hs).1
      rw [storeReading_decoded hready hok hv]
      exact ⟨rfl, rfl, rfl, by rw [hslots, List.set_set]⟩
    next hv =>
      rw [storeReading_undecoded hok hv]
      exact ⟨rfl, rfl, rfl, hslots⟩
  next hbad =>
    rw [← hparams, Bool.not_eq_true] at hbad
    rw [storeReading_bad hbad]
    exact ⟨rfl, rfl, rfl, hslots⟩

/-- Settles O45: the bus calls leave the slot READY, and nothing is stored. -/
theorem retrieveKeepsTheTemperatureOnABadScratchpad : Obligations.RetrieveKeepsTheTemperatureOnABadScratchpad := by
  intro s n sl p q ps bits sp rest hs ht he hbad
  exact (exec_retrieveData_answers hs ht he).trans (congrArg _ (storeReading_bad hbad))

/-! ## A sensor missing from the reference bus -/

/-- A function command to an address that no sensor has changes no sensor (20_memory.md R47). -/
theorem onSensor_missing {a : Addr} {ds : List Sensor} (h : ∀ d ∈ ds, d.addr ≠ a) (f : Sensor → Sensor) :
    onSensor a f ds = ds := by
  rw [onSensor, List.map_congr_left fun d hd => if_neg (h d hd), List.map_id']

/-- A transaction with an address that no sensor has selects it, and changes the address of no sensor (20_memory.md R47). -/
theorem matchRom_missing {s : State} {bus : RefBus} {a : Addr} (henv : s.env = .reference bus)
    (hmissing : ∀ d ∈ bus.sensors, d.addr ≠ a) :
    ∃ ds, (matchRom a s).env = .reference ⟨ds, .selected a⟩ ∧ ∀ d ∈ ds, d.addr ≠ a :=
  ⟨_, matchRom_env_reference henv a, List.forall_mem_map.mpr hmissing⟩

/-- Where no sensor has the slot's address, the conversion reaches none and the nine reads give 0xFF (20_memory.md R47). -/
theorem retrieveRead_missing {s : State} {bus : RefBus} {sl : Slot} (henv : s.env = .reference bus)
    (hmissing : ∀ d ∈ bus.sensors, d.addr ≠ sl.addr) (n : Nat) :
    (retrieveRead n sl s).1 = ⟨0xFF, 0xFF, 0xFF, 0xFF, 0xFF, 0xFF, 0xFF, 0xFF, 0xFF⟩ := by
  obtain ⟨ds, hselected, hds⟩ := matchRom_missing (s := retrieveStart n s) henv hmissing
  have hconverted := (busWriteByte_env_reference hselected cmdConvertT).trans
    (b := Env.reference ⟨onSensor sl.addr (converted _) ds, .idle⟩) rfl
  rw [onSensor_missing hds] at hconverted
  obtain ⟨ds', hselected', hds'⟩ := matchRom_missing
    (s := busDelay (tconv sl.res) (busWriteByte cmdConvertT (matchRom sl.addr (retrieveStart n s)))) hconverted hds
  have hreading := (busWriteByte_env_reference hselected' cmdReadScratchpad).trans
    (b := Env.reference ⟨ds', .reading sl.addr 0⟩) rfl
  have hnone : ds'.find? (fun d => d.addr == sl.addr) = none :=
    List.find?_eq_none.mpr fun d hd => by simpa using hds' d hd
  rw [retrieveRead, convertAndRead, readScratchpad_reference hreading, hnone]

/-- Settles O48: nine 0xFF are read, and the default CRC-8 of the first eight is not 0xFF. -/
theorem retrieveFromAMissingSensor : Obligations.RetrieveFromAMissingSensor := by
  intro s n sl bus hs ht henv hmissing hcrc
  obtain ⟨p, q, htrace⟩ := retrieveRead_trace n sl s
  have hsilent := retrieveRead_missing henv hmissing n
  have hslots := retrieveRead_slots hs
  have hbad : scratchpadOk (retrieveRead n sl s).2.params (retrieveRead n sl s).1 = false := by
    rw [retrieveRead_params, hsilent]
    exact scratchpadCheckRejectsSilentBuses.2.2 s.params hcrc
  rw [hsilent] at htrace
  rw [exec_retrieveData_known hs ht, storeReading_bad hbad]
  generalize (retrieveRead n sl s).2 = u at htrace hslots ⊢
  exact ⟨_, rfl, rfl, hslots, p, q, htrace⟩

end Sys2Proof.Machine
end

section
/-! PROOFS. The decoder (42_decoder.md): the two family decodes as roundings (R111, R113), the default CRC-8 (R107), the type of a
family code (R108) and the Fahrenheit output (R119). -/

namespace Sys2Proof.Machine

/-! ## DS18B20 and DS1822 -/

/-- Clearing the low k bits of a word is an arithmetic shift right by k and back. -/
theorem and_allOnes_shiftLeft {w : Nat} (x : BitVec w) (k : Nat) :
    x &&& (BitVec.allOnes w <<< k) = x.sshiftRight k <<< k := by
  ext i hi
  by_cases h : i < k
  · simp [h]
  · have hback : k + (i - k) = i := by omega
    simp [h, BitVec.getElem_sshiftRight, hback, hi]

/-- A left shift multiplies the signed value, where it does not overflow. -/
theorem toInt_shiftLeft_eq_bmod {w : Nat} (x : BitVec w) (k : Nat) : (x <<< k).toInt = (x.toInt * 2 ^ k).bmod (2 ^ w) := by
  rw [BitVec.toInt_shiftLeft, Nat.shiftLeft_eq, BitVec.toInt_eq_toNat_bmod, Int.bmod_mul_bmod]
  push_cast
  rfl

theorem resMask_eq (r : Resolution) : resMask r = BitVec.allOnes 12 <<< (12 - resBits r) := by
  cases r <;> rfl

/-- Rounding down to a resolution's step stays among the signed 12-bit numbers, as -2048 is a multiple of every step. -/
theorem roundDown_range (r : Resolution) {t : Int} (hlo : -2048 ≤ t) (hhi : t ≤ 2047) :
    -2048 ≤ t / 2 ^ (12 - resBits r) * 2 ^ (12 - resBits r) ∧ t / 2 ^ (12 - resBits r) * 2 ^ (12 - resBits r) ≤ 2047 := by
  cases r <;> simp only [resBits] <;> omega

/-- Settles O52: the mask is an arithmetic shift right and back, and the way back does not overflow 12 bits. -/
theorem b20DecodeRoundsDownToTheResolution : Obligations.B20DecodeRoundsDownToTheResolution := by
  intro r field
  obtain ⟨hlo, hhi⟩ := roundDown_range r (BitVec.le_toInt (field.extractLsb' 0 12))
    (Int.le_of_lt_add_one (BitVec.toInt_lt (x := field.extractLsb' 0 12)))
  have hvalue : decodeB20 r field = (field.extractLsb' 0 12).toInt / 2 ^ (12 - resBits r) * 2 ^ (12 - resBits r) := by
    rw [decodeB20, resMask_eq, and_allOnes_shiftLeft, toInt_shiftLeft_eq_bmod, BitVec.toInt_sshiftRight,
      Int.shiftRight_eq_div_pow]
    push_cast
    exact Int.bmod_eq_of_le (by omega) (by omega)
  rw [hvalue]
  exact ⟨rfl, hlo, hhi⟩

/-! ## DS18S20 -/

theorem floorDiv_eq_floor (a : Int) (b : Nat) : floorDiv a b = ⌊(a : ℚ) / b⌋ := by
  rw [floorDiv, Int.fdiv_eq_ediv_of_nonneg _ (Int.natCast_nonneg b), Rat.floor_intCast_div_natCast]

/-- The formula over the rationals: 16 times the half-degree part is an integer, so the floor is that of the count part. -/
theorem s20Sixteenths_eq_floor (half : Int) (cr cpc : Nat) :
    s20Sixteenths half cr cpc = ⌊16 * ((⌊(half : ℚ) / 2⌋ : ℚ) - 1 / 4 + ((cpc : ℚ) - (cr : ℚ)) / (cpc : ℚ))⌋ := by
  have hhalf : floorDiv half 2 = ⌊(half : ℚ) / 2⌋ := floorDiv_eq_floor half 2
  rw [s20Sixteenths, floorDiv_eq_floor, hhalf, ← Int.floor_intCast_add]
  congr 1
  push_cast
  ring

/-- The range of the formula (42_decoder.md R113): each of its two quotients is bounded by the bits of what is divided. -/
theorem s20Sixteenths_range {half : Int} {cr cpc : Nat} (hlo : -256 ≤ half) (hhi : half < 256) (hcr : cr < 256)
    (hcpc : 0 < cpc) : -6116 ≤ s20Sixteenths half cr cpc ∧ s20Sixteenths half cr cpc ≤ 2044 := by
  have hcountLo : -4064 ≤ 16 * ((cpc : Int) - cr) / cpc := (Int.le_ediv_iff_mul_le (by omega)).mpr (by omega)
  have hcountHi : 16 * ((cpc : Int) - cr) / cpc ≤ 16 := Int.ediv_le_of_le_mul (by omega) (by omega)
  rw [s20Sixteenths, floorDiv, floorDiv, Int.fdiv_eq_ediv_of_nonneg _ (by omega), Int.fdiv_eq_ediv_of_nonneg _ (by omega)]
  omega

/-- Settles O53: both layouts name the two count bytes, and the formula's floor is that of its rational form. -/
theorem s20DecodeFollowsTheFormula : Obligations.S20DecodeFollowsTheFormula := by
  intro layout field sp cr cpc hbytes
  have hcounts : padByte sp (countRemainIndex layout) = cr ∧ padByte sp (countPerCIndex layout) = cpc := by
    cases layout <;> exact ⟨hbytes.1.symm, hbytes.2.symm⟩
  obtain ⟨rfl, rfl⟩ := hcounts
  refine ⟨fun hz => if_pos hz, fun hnz => ⟨_, if_neg hnz, ?_⟩⟩
  obtain ⟨hlo, hhi⟩ := s20Sixteenths_range (BitVec.le_toInt (field.extractLsb' 0 9)) BitVec.toInt_lt
    (padByte sp (countRemainIndex layout)).isLt (Nat.pos_of_ne_zero fun h => hnz (BitVec.eq_of_toNat_eq h))
  exact ⟨hlo, hhi, s20Sixteenths_eq_floor ..⟩

/-! ## The default CRC-8 -/

/-- A register that is fed its own value never takes in the polynomial: it is shifted out (42_decoder.md R107). -/
theorem crcBits_self (n : Nat) (c : Byte) : crcBits n c c = c >>> n := by
  induction n generalizing c with
  | zero => rfl
  | succ n ih => simp [crcBits, ih, BitVec.shiftRight_add, Nat.add_comm n 1]

theorem crcFrom_append (c : Byte) (xs ys : List Byte) : crcFrom c (xs ++ ys) = crcFrom (crcFrom c xs) ys := by
  induction xs generalizing c with
  | nil => rfl
  | cons d rest ih => exact ih _

/-- Settles O54: the CRC-8 after a message meets its own value in the register, and eight shifts leave nothing of it. -/
theorem crcOfZerosAndResidue : Obligations.CrcOfZerosAndResidue := by
  refine ⟨dallasCrc8_zeros, fun bytes => ?_⟩
  have hself : crcBits 8 (dallasCrc8 bytes) (dallasCrc8 bytes) = 0 :=
    (crcBits_self 8 _).trans (BitVec.ushiftRight_eq_zero le_rfl)
  rw [dallasCrc8, crcFrom_append]
  exact hself

/-- Settles O55: three closed runs of the CRC-8. -/
theorem crcCheckValues : Obligations.CrcCheckValues := by
  refine ⟨?_, ?_, ?_⟩ <;> decide +kernel

/-! ## The family code, and the Fahrenheit output -/

/-- Settles O56. -/
theorem classifyFollowsTheFamilyCode : Obligations.ClassifyFollowsTheFamilyCode := by
  intro f
  refine ⟨?_, ?_, ?_, fun h10 h28 h22 => ?_⟩
  · rintro rfl
    rfl
  · rintro rfl
    rfl
  · rintro rfl
    rfl
  · rw [classify, if_neg h10, if_neg h28, if_neg h22]

/-- Settles O51: T is in -32768..32767, and 9T + 2560 is linear in it. -/
theorem fahrenheitIsExact : Obligations.FahrenheitIsExact := by
  intro t
  have hlo := BitVec.le_toInt t
  have hhi := BitVec.toInt_lt (x := t)
  rw [fahrenheit80]
  refine ⟨?_, by omega, by omega⟩
  push_cast
  ring

end Sys2Proof.Machine
end

section
/-! PROOFS. Errors and bounds (60_exceptions.md): a per-device command on a free slot (R122), and the bus calls of every command, in
every environment (R128). -/

namespace Sys2Proof.Machine

/-! ## A free slot -/

/-- The nine per-device commands begin with `check_slot` (60_exceptions.md R122). -/
theorem exec_eq_checkSlot {i : Instr} {n : Nat} (hi : slotOperand i = some n) :
    ∃ k, ∀ s, exec i s = .next (checkSlot n (beginCommand s) k) := by
  cases i with
  | getType | getTypeStr | getAddress | getResolution | getState | setResolution | retrieveData | getCelsius
  | getFahrenheit =>
    cases hi
    exact ⟨_, fun _ => rfl⟩
  | resetSearch | search | getCursor | clearTable | getSlotCount => cases hi

/-- Settles O37: the slot check comes first, and a free slot fails it. -/
theorem freeSlotEndsBadSlot : Obligations.FreeSlotEndsBadSlot := by
  intro s i n hi hn
  obtain ⟨k, hexec⟩ := exec_eq_checkSlot hi
  rw [hexec, checkSlot_free (s := beginCommand s) hn]
  rfl

/-! ## Bus calls in a trace -/

@[simp] theorem busCalls_append (l m : List BusEvent) : busCalls (l ++ m) = busCalls l + busCalls m := by
  rw [busCalls, List.filter_append, List.length_append]
  rfl

/-- From `s` to `t` the trace grows by at most `k` bus calls and no Delay. -/
structure AddsBusCalls (k : Nat) (s t : State) : Prop where
  noDelay : t.trace.length + busCalls s.trace = s.trace.length + busCalls t.trace
  atMost : busCalls t.trace ≤ busCalls s.trace + k

theorem AddsBusCalls.of_append {k : Nat} {s t : State} {tr : List BusEvent} (ht : t.trace = s.trace ++ tr)
    (hcalls : busCalls tr = tr.length) (hk : tr.length ≤ k) : AddsBusCalls k s t := by
  constructor <;> rw [ht, busCalls_append]
  · rw [List.length_append]
    omega
  · omega

theorem AddsBusCalls.of_trace_eq {s t : State} (h : t.trace = s.trace) (k : Nat) : AddsBusCalls k s t :=
  .of_append (tr := []) (by rw [h, List.append_nil]) rfl (Nat.zero_le k)

theorem AddsBusCalls.mono {j k : Nat} {s t : State} (h : AddsBusCalls j s t) (hjk : j ≤ k) : AddsBusCalls k s t :=
  ⟨h.noDelay, h.atMost.trans (Nat.add_le_add_left hjk _)⟩

theorem AddsBusCalls.trans {j k : Nat} {s t u : State} (h : AddsBusCalls j s t) (g : AddsBusCalls k t u) :
    AddsBusCalls (j + k) s u := by
  obtain ⟨hdelay, hmost⟩ := h
  obtain ⟨gdelay, gmost⟩ := g
  constructor <;> omega

/-- A command begins with an empty trace, so that its trace is what it adds (00_scope.md R9; log 9). -/
theorem AddsBusCalls.of_beginCommand {k : Nat} {s t : State} (h : AddsBusCalls k (beginCommand s) t) :
    t.trace.length = busCalls t.trace ∧ busCalls t.trace ≤ k :=
  ⟨h.noDelay.trans (Nat.zero_add _), h.atMost.trans (Nat.zero_add k).le⟩

theorem busReset_addsBusCalls (s : State) : AddsBusCalls 1 s (busReset s).2 := .of_append (busReset_trace s) rfl le_rfl
theorem busReadBit_addsBusCalls (s : State) : AddsBusCalls 1 s (busReadBit s).2 := .of_append (busReadBit_trace s) rfl le_rfl
theorem busWriteBit_addsBusCalls (b : Bool) (s : State) : AddsBusCalls 1 s (busWriteBit b s) :=
  .of_append (busWriteBit_trace b s) rfl le_rfl
theorem busWriteByte_addsBusCalls (b : Byte) (s : State) : AddsBusCalls 1 s (busWriteByte b s) :=
  .of_append (busWriteByte_trace b s) rfl le_rfl

/-! ## The bus calls of SEARCH -/

/-- A walk of n bits makes at most three bus calls a bit, two reads and a write (40_enumeration.md R68). -/
theorem searchBits_addsBusCalls (n i : Nat) (q : SearchSeq) (s : State) :
    AddsBusCalls (3 * n) s (searchBits n i q s).2 := by
  induction n generalizing i q s with
  | zero => exact .of_trace_eq rfl 0
  | succ n ih =>
    have hreads := (busReadBit_addsBusCalls s).trans (busReadBit_addsBusCalls (busReadBit s).2)
    cases h : (busReadBit s).1 && (busReadBit (busReadBit s).2).1 with
    | true =>
      rw [searchBits_noResponse h]
      exact hreads.mono (by omega)
    | false =>
      rw [searchBits_succ h]
      exact ((hreads.trans (busWriteBit_addsBusCalls _ _)).trans (ih _ _ _)).mono (by omega)

theorem searchFail_trace (c : PassCause) (s : State) : (searchFail c s).trace = s.trace := rfl

/-- The CRC check and what follows it make no bus call (40_enumeration.md R75 to R77). -/
theorem searchEnd_trace (r : Option SearchSeq × State) : (searchEnd r).trace = r.2.trace := by
  unfold searchEnd
  split
  · rfl
  · split <;> rfl

/-- SEARCH on the bus: BusReset, Search ROM and the walk of 64 bits (40_enumeration.md R68, R71, R72). -/
theorem searchBus_addsBusCalls (s : State) : AddsBusCalls 194 s (searchBus s) := by
  have hreset := busReset_addsBusCalls s
  unfold searchBus
  simp only
  split
  · have hwalk := (hreset.trans (busWriteByte_addsBusCalls cmdSearchRom _)).trans (searchBits_addsBusCalls 64 0 ⟨0, 0xFF⟩ _)
    exact hwalk.trans (.of_trace_eq (searchEnd_trace _) 0)
  · exact (hreset.trans (.of_trace_eq (searchFail_trace ..) 0)).mono (by omega)

theorem execSearch_addsBusCalls {s t : State} (h : execSearch s = .next t) : AddsBusCalls 194 (beginCommand s) t := by
  rcases execSearch_cases h with rfl | rfl | ⟨-, -, rfl⟩
  · exact .of_trace_eq (raise_trace ..) _
  · exact .of_trace_eq (raise_trace ..) _
  · exact searchBus_addsBusCalls _

/-! ## The bus calls of the per-device commands -/

/-- A command that only reads its slot makes no bus call: the five accessors and the two temperature outputs. -/
theorem checkSlot_finish_addsBusCalls {n : Nat} {s t : State} {d : Slot → BitVec 64} {x : Slot → BitVec 32}
    (h : (.next (checkSlot n (beginCommand s) fun sl => finish .ok (d sl) (x sl)) : Host.Outcome State Fault Refusal) = .next t) :
    AddsBusCalls 0 (beginCommand s) t := by
  rcases checkSlot_cases h with rfl | ⟨sl, -, rfl⟩
  · exact .of_trace_eq (raise_trace ..) 0
  · exact .of_trace_eq (finish_trace ..) 0

/-- SET_RESOLUTION makes no bus call, or its 14 (41_device.md R92 to R95). -/
theorem execSetResolution_addsBusCalls {n bits : Nat} {s t : State} (h : execSetResolution n bits s = .next t) :
    AddsBusCalls 14 (beginCommand s) t := by
  rcases execSetResolution_cases h with ⟨c, -, rfl⟩ | ⟨sl, r, -, -, -, rfl⟩
  · exact .of_trace_eq (raise_trace ..) _
  · have htrace := writeConfig_trace sl.addr r (beginCommand s)
    rw [List.append_assoc] at htrace
    exact .of_append htrace rfl le_rfl

/-- Every command but RETRIEVE_DATA makes no Delay, and at most its bound of bus calls (60_exceptions.md R128). -/
theorem exec_addsBusCalls {i : Instr} {s t : State} (hi : ∀ n, i ≠ .retrieveData n) (h : exec i s = .next t) :
    AddsBusCalls (busCallBound i) (beginCommand s) t := by
  cases i with
  | search => exact execSearch_addsBusCalls h
  | setResolution n bits => exact execSetResolution_addsBusCalls h
  | retrieveData n => exact absurd rfl (hi n)
  | resetSearch | getCursor | clearTable | getSlotCount =>
    cases h
    refine .of_trace_eq ?_ 0
    rfl
  | getType | getTypeStr | getAddress | getResolution | getState | getCelsius | getFahrenheit =>
    exact checkSlot_finish_addsBusCalls h

theorem busCalls_retrieveTrace (sl : Slot) (p q : Bool) (sp : Scratchpad) : busCalls (retrieveTrace sl p q sp) = 31 := rfl
theorem length_retrieveTrace (sl : Slot) (p q : Bool) (sp : Scratchpad) : (retrieveTrace sl p q sp).length = 32 := rfl

/-- RETRIEVE_DATA makes no bus call, or its 31 and one Delay (41_device.md R99, R100). -/
theorem execRetrieveData_busCalls {n : Nat} {s t : State} (h : execRetrieveData n s = .next t) :
    busCalls t.trace ≤ 31 ∧ t.trace.length ≤ busCalls t.trace + 1 := by
  rcases execRetrieveData_cases h with ⟨c, -, rfl⟩ | ⟨sl, -, -, rfl⟩
  · exact ⟨Nat.zero_le _, Nat.zero_le _⟩
  · obtain ⟨p, q, htrace⟩ := retrieveRead_trace n sl s
    have hall : (retrieveOn n sl (beginCommand s)).trace = _ := (storeReading_trace ..).trans htrace
    rw [hall, length_retrieveTrace, busCalls_retrieveTrace]
    exact ⟨le_rfl, le_rfl⟩

/-- Settles O23: RETRIEVE_DATA has at most one Delay beside its bus calls, and every other command makes bus calls only. -/
theorem commandsStayWithinTheirBusCalls : Obligations.CommandsStayWithinTheirBusCalls := by
  intro i s t h
  by_cases hi : ∃ n, i = .retrieveData n
  · obtain ⟨n, rfl⟩ := hi
    obtain ⟨hcalls, hdelay⟩ := execRetrieveData_busCalls h
    exact ⟨hcalls, hdelay, fun hne => absurd rfl (hne n)⟩
  · obtain ⟨hnoDelay, hcalls⟩ := (exec_addsBusCalls (not_exists.mp hi) h).of_beginCommand
    exact ⟨hcalls, hnoDelay.le.trans (Nat.le_succ _), fun _ => hnoDelay⟩

end Sys2Proof.Machine
end

section
/-! PROOFS. Power-on reset (70_reset_and_hazards.md R135 to R137): the registers it leaves, and the step that takes it as an
input. -/

namespace Sys2Proof.Machine

/-- R136 in every instance and every outside world; CUR.LD holds −1 as the byte 0xFF. -/
theorem powerOnWith_registers (p : Params) (ins : List Input) (e : Env) (k : Nat) :
    RegistersAtPowerOn (State.powerOnWith p ins e k) where
  la := rfl
  ld := show Cursor.initial.ld.toInt = -1 by decide
  done := rfl
  cause := rfl
  pass := rfl
  count := rfl
  cmd := rfl
  status := rfl
  rdata := rfl
  raux := rfl

/-- Settles O1: power-on reset and the reset state are both `State.powerOnWith`. -/
theorem powerOnSetsEveryRegister : Obligations.PowerOnSetsEveryRegister :=
  ⟨fun _ => powerOnWith_registers .., powerOnWith_registers ..⟩

/-- The step of a power-on input: the block starts anew in its own instance and outside world (R137; log 13). -/
theorem step_of_inputs_powerOn {s : State} {rest : List Input} (h : s.inputs = .powerOn :: rest) :
    step s = .next (State.powerOnWith s.params rest s.env s.draws) :=
  step_of_inputs_cons h

/-- Settles O2: the step is `State.powerOnWith` with the parameters, the environment and the count of draws it had. -/
theorem powerOnInputLeavesTheBusAlone : Obligations.PowerOnInputLeavesTheBusAlone :=
  fun _ _ h => ⟨_, step_of_inputs_powerOn h, powerOnWith_registers .., rfl, rfl, rfl, rfl, rfl⟩

end Sys2Proof.Machine
end
